-- ==== Sys2Proof/Word.lean ====
section
/-! DEFINITION. The word types of the block: a byte (R8), and the wider words of the timestamp
(R176) and of STATUS (R25). Values the spec treats as mathematical integers are `Int` or `Nat` (R10). -/

namespace Sys2Proof

/-- R8: a byte is an unsigned integer in 0..255. -/
abbrev Byte := BitVec 8

/-- The `u16` of the timestamp ticks (R176). -/
abbrev Half := BitVec 16

/-- The `u32` of STATUS (R25), of timestamp seconds (R176) and of a float pattern (R12). -/
abbrev Word := BitVec 32

end Sys2Proof
end

