-- ==== Sys2Proof/Config.lean ====
section
/-! DEFINITION. The implementation parameters of 00_scope.md R6, and the one free value of the model.
`TS_POLICY` is a parameter with two values: its type stands here, its value is held in `State.tsPolicy`
so that every statement covers both values (D13). -/

namespace Sys2Proof

/-- R6, R26, D13: whether a reply always carries its timestamp (`ALWAYS`) or only when payloadType
bit 4 is set (`GATED`). -/
inductive TsPolicy
  | always
  | gated
  deriving DecidableEq, Repr

/-- D13: the default of `TS_POLICY`. -/
def TsPolicy.default : TsPolicy := .always

/-- R25: `TS_GATED` is 0 for `ALWAYS` and 1 for `GATED`. -/
def TsPolicy.code : TsPolicy → BitVec 1
  | .always => 0
  | .gated => 1

namespace Config

/-- R6 `WIDTHS`: the element widths in bytes. -/
abbrev widths : List Nat := [1, 2, 4, 8]

/-- R6 `FLOAT_WIDTH`. -/
abbrev floatWidth : Nat := 4

/-- R6 `DEFAULT_PORT`. -/
abbrev defaultPort : Byte := 255

/-- R6 `TICK_US`: microseconds in one sub-second tick. -/
abbrev tickMicros : Nat := 32

/-- R6 `LEN_MAX`: the largest value of the length byte. -/
abbrev lenMax : Nat := 255

/-- R6 `FRAME_MAX`: the bytes of the largest frame, and of `rx_buf` (R23). -/
abbrev frameMax : Nat := 257

/-- R6 `REQ_PAYLOAD_MAX`. -/
abbrev reqPayloadMax : Nat := 251

/-- R6 `REPLY_PAYLOAD_MAX` with a timestamp. -/
abbrev replyPayloadMaxT : Nat := 245

/-- R6 `REPLY_PAYLOAD_MAX` without a timestamp. -/
abbrev replyPayloadMaxN : Nat := 251

/-- R6 `PAYLOAD_MAX`: the capacity of the stand-alone PENC output and PDEC input. -/
abbrev payloadMax : Nat := 251

/-- R6 `NVAL_MAX`: the values of one command. -/
abbrev nvalMax : Nat := 255

/-- R6 `LANE_RANGE`, the lower end. -/
abbrev laneMin : Int := -(2 ^ 64)

/-- R6 `LANE_RANGE`, the upper end. -/
abbrev laneMax : Int := 2 ^ 64 - 1

/-- FREE VALUE (R23, R34; U1 of 93_implementation_defined.md): what an entry of `rx_buf` holds that no
rule defines, by its index. It has no body: nothing about it can be proved. In every state that meets
`Receive.Inv` no instruction reads it. Log entry 3. -/
opaque unspecifiedRxByte : Nat → Byte

end Config

end Sys2Proof
end

