-- ==== Sys2Proof/Syntax.lean ====
section
/-! DEFINITION. What crosses the block's ports: values and instructions going in, result records and
output events coming out; and `Instr`, one constructor for each of the 41 rows of
spec/opcode_table.json. -/

namespace Sys2Proof

/-- R16: the two agents. -/
inductive Agent
  | hostCommand
  | receiveSource
  deriving DecidableEq, Repr

/-- R12: a payload value. An integer is restricted to `LANE_RANGE` by `PVal.wf` (WellFormed.lean); a
float is its 32-bit pattern. -/
inductive PVal
  | int (n : Int)
  | f32 (bits : Word)
  deriving DecidableEq, Repr

/-- R300: the ten status codes. Codes 0x0A to 0xFF are never produced (U10). -/
inductive Status
  | ok
  | checksumMismatch
  | truncatedFrame
  | streamClosed
  | invalidPayloadType
  | encodingError
  | decodingError
  | invalidMessageType
  | frameLengthMismatch
  | illegalOperation
  deriving DecidableEq, Repr

/-- R300: the 8-bit number of a status. -/
def Status.code : Status → Byte
  | .ok => 0x00
  | .checksumMismatch => 0x01
  | .truncatedFrame => 0x02
  | .streamClosed => 0x03
  | .invalidPayloadType => 0x04
  | .encodingError => 0x05
  | .decodingError => 0x06
  | .invalidMessageType => 0x07
  | .frameLengthMismatch => 0x08
  | .illegalOperation => 0x09

/-- R101: the fields of a legal descriptor byte. -/
structure Desc where
  width : Nat
  signed : Bool
  isFloat : Bool
  hasTimestamp : Bool
  deriving DecidableEq, Repr

/-- R175: the five message kinds. -/
inductive MsgKind
  | read
  | write
  | event
  | readError
  | writeError
  deriving DecidableEq, Repr

/-- R173, R176: the raw timestamp fields. -/
structure Timestamp where
  seconds : Word
  ticks : Half
  deriving DecidableEq, Repr

/-- R173: the exact number of seconds the raw fields denote. The block returns the fields and never
computes this number. -/
def Timestamp.value (t : Timestamp) : ℚ :=
  t.seconds.toNat + t.ticks.toNat * Config.tickMicros / 1000000

/-- R176: the reply record of a successful DECR. -/
structure Reply where
  kind : MsgKind
  msgType : Byte
  length : Byte
  address : Byte
  port : Byte
  payloadType : Byte
  timestamp : Option Timestamp
  payload : List Byte
  values : List PVal
  checksum : Byte
  deriving DecidableEq, Repr

/-- R84: the result record. A field an operation does not set is empty. -/
structure Result where
  status : Status
  bytes : List Byte := []
  values : List PVal := []
  desc : Option Desc := none
  cs : Option Byte := none
  reply : Option Reply := none
  word : Option Word := none
  deriving DecidableEq, Repr

/-- R88: the receive output events. `fault` carries the code of its cause, which is
`truncatedFrame` or `streamClosed`. -/
inductive RxOut
  | frame (f : List Byte)
  | noFrame
  | fault (code : Status)
  deriving DecidableEq, Repr

/-- One encoded item, in one of the five encoding spaces of spec/opcode_table.json (its column
"format"). The first two are what the agents drive: a command-port transaction (R80) and a
receive-port word (R86). The other three are the wire encodings a unit of the block builds, takes
apart or validates (R61, R62, R72), presented to that unit. Log entry 5. -/
inductive Encoded
  | command (c : List Byte)
  | receive (ev : BitVec 2) (b : Byte)
  | requestFrame (f : List Byte)
  | replyFrame (f : List Byte)
  | descriptor (d : Byte)
  deriving DecidableEq, Repr

/-- The table's column "format". -/
inductive Format
  | command
  | receiveEvent
  | frame
  | replyFrame
  | payloadType
  deriving DecidableEq, Repr

def Encoded.format : Encoded → Format
  | .command _ => .command
  | .receive _ _ => .receiveEvent
  | .requestFrame _ => .frame
  | .replyFrame _ => .replyFrame
  | .descriptor _ => .payloadType

/-- R16: the agent that drives an item. Log entry 5 for the wire encodings, which the host presents. -/
def Encoded.agent : Encoded → Agent
  | .receive _ _ => .receiveSource
  | .command _ => .hostCommand
  | .requestFrame _ => .hostCommand
  | .replyFrame _ => .hostCommand
  | .descriptor _ => .hostCommand

/-- Why the decoder rejects an item. Commands and descriptor bytes are never rejected: every one of them
is some row (R82, R74). -/
inductive DecodeError
  /-- a receive word with event code 3, which has no meaning (R87) -/
  | reservedReceiveEvent
  /-- fewer bytes than the 6 of the smallest request frame (R61) -/
  | requestTooShort
  /-- the length byte is not the number of bytes after it (R63), or not 4 in a Read request (R61) -/
  | requestLength
  /-- the last byte is not the checksum of the others (R64) -/
  | requestChecksum
  /-- the type byte is neither 1 nor 2 (R70) -/
  | requestType
  /-- byte 4 is no legal descriptor (R145) -/
  | requestDescriptor
  /-- the payload is no whole number of elements (R106) -/
  | requestPayload
  /-- more bytes than `FRAME_MAX` (R6) -/
  | replyTooLong
  deriving DecidableEq, Repr

/-- R87: the receive events, exactly these three. Event code 3 cannot be written down as one. -/
inductive RxEvent
  | rxByte (b : Byte)
  | rxTimeout
  | rxClosed
  deriving DecidableEq, Repr

/-- The instructions: one constructor for each row of spec/opcode_table.json, in the table's order.
The abstract commands are R85's. -/
inductive Instr
  -- format "command"
  | ptyp (d : Byte)
  | penc (d : Byte) (vs : List PVal)
  | pdec (d : Byte) (bs : List Byte)
  | csum (bs : List Byte)
  | encr (a p d : Byte)
  | encw (a p d : Byte) (vs : List PVal)
  | decr (raw : List Byte)
  | rst
  | stat
  /-- R82: the command bytes, which are no legal command -/
  | illegal (c : List Byte)
  -- format "receive_event"
  | rxByte (b : Byte)
  | rxTimeout
  | rxClosed
  /-- R87: the table's row for event code 3. It is no `RxEvent`, and no word decodes to it (log
  entry 9). -/
  | rxReserved
  -- format "frame": the frames ENCR and ENCW build (R61)
  | readReq (a p d : Byte)
  | writeReq (a p d : Byte) (vs : List PVal)
  -- format "reply_frame": the type byte is the row's own, `rest` is every byte after it (R62)
  | read (rest : List Byte)
  | write (rest : List Byte)
  | event (rest : List Byte)
  | readError (rest : List Byte)
  | writeError (rest : List Byte)
  /-- R70: the whole byte string, whose type byte is none of the five -/
  | replyUnassigned (raw : List Byte)
  -- format "payload_type" (R73)
  | u8
  | tu8
  | s8
  | ts8
  | u16
  | tu16
  | s16
  | ts16
  | u32
  | tu32
  | s32
  | ts32
  | u64
  | tu64
  | s64
  | ts64
  | float
  | tfloat
  /-- R74: an illegal descriptor byte -/
  | ptIllegal (d : Byte)
  deriving DecidableEq, Repr

/-- The row of a receive event (R86). -/
def RxEvent.instr : RxEvent → Instr
  | .rxByte b => .rxByte b
  | .rxTimeout => .rxTimeout
  | .rxClosed => .rxClosed

/-- The table's column "format" of a row. -/
def Instr.format : Instr → Format
  | .ptyp _ | .penc _ _ | .pdec _ _ | .csum _ | .encr _ _ _ | .encw _ _ _ _ | .decr _ | .rst
  | .stat | .illegal _ => .command
  | .rxByte _ | .rxTimeout | .rxClosed | .rxReserved => .receiveEvent
  | .readReq _ _ _ | .writeReq _ _ _ _ => .frame
  | .read _ | .write _ | .event _ | .readError _ | .writeError _ | .replyUnassigned _ => .replyFrame
  | .u8 | .tu8 | .s8 | .ts8 | .u16 | .tu16 | .s16 | .ts16 | .u32 | .tu32 | .s32 | .ts32 | .u64
  | .tu64 | .s64 | .ts64 | .float | .tfloat | .ptIllegal _ => .payloadType

end Sys2Proof
end

