-- ==== Sys2Proof/Machine/Operands.lean ====
section
/-! DEFINITION. The operand forms and the pure units of the block, over the byte-sequence primitives of
00_scope.md R9 and R10: descriptor functions (R100, R101), element functions (R103, R104), payload
bodies (R105 to R107), the checksum (R140) and frame assembly (R142, R143). -/

namespace Sys2Proof

/-! ### Byte sequences (R9, R10) -/

/-- R10 `LE(raw)`: the unsigned little-endian value of a byte sequence. -/
def le : List Byte → Nat
  | [] => 0
  | b :: bs => b.toNat + 256 * le bs

/-- R10 `le_bytes_k(v)`: the `k` low bytes of `v`, least significant first. -/
def leBytes : Nat → Nat → List Byte
  | 0, _ => []
  | k + 1, v => BitVec.ofNat 8 v :: leBytes k (v / 256)

/-- R10 `sLE_k(raw)`: the signed reading of a `k`-byte sequence. -/
def sle (k : Nat) (raw : List Byte) : Int :=
  if 2 ^ (8 * k - 1) ≤ le raw then (le raw : Int) - 2 ^ (8 * k) else le raw

/-- R9 `raw[i]`. The default is never read: every use stands behind a length check. -/
def byteAt (raw : List Byte) (i : Nat) : Byte := raw.getD i 0

/-- `n` bytes of `raw` from index `i`: R9 `raw[i .. i + n − 1]`. -/
def slice (raw : List Byte) (i n : Nat) : List Byte := (raw.drop i).take n

/-! ### The checksum unit (R140) -/

/-- R140: the sum of the bytes modulo 256. -/
def checksum (bs : List Byte) : Byte := BitVec.ofNat 8 ((bs.map BitVec.toNat).sum % 256)

/-- R64: a byte sequence followed by its checksum. -/
def withChecksum (f : List Byte) : List Byte := f ++ [checksum f]

/-! ### Descriptors (R72 to R75, R100, R101) -/

/-- R72 `width(d) = d[3:0]`. -/
def descWidth (d : Byte) : Nat := (d.extractLsb' 0 4).toNat

/-- R72 `signed(d) = d[7]`. -/
def descSigned (d : Byte) : Bool := d.getLsbD 7

/-- R72 `float(d) = d[6]`. -/
def descFloat (d : Byte) : Bool := d.getLsbD 6

/-- R72: bit 5 is reserved. -/
def descReserved (d : Byte) : Bool := d.getLsbD 5

/-- R72 `ts(d) = d[4]`. -/
def descTs (d : Byte) : Bool := d.getLsbD 4

/-- R100 `valid(d)`, its four conjuncts in the rule's order. -/
def descValid (d : Byte) : Bool :=
  Config.widths.contains (descWidth d)
    && !descReserved d
    && (!descFloat d || descWidth d == Config.floatWidth)
    && !(descFloat d && descSigned d)

/-- R101 `fields(d)`. -/
def descFields (d : Byte) : Desc :=
  { width := descWidth d, signed := descSigned d, isFloat := descFloat d, hasTimestamp := descTs d }

/-- R73: the 18 legal descriptors, in the table's order. -/
def legalDescriptors : List Byte :=
  [0x01, 0x81, 0x02, 0x82, 0x04, 0x84, 0x08, 0x88, 0x44,
   0x11, 0x91, 0x12, 0x92, 0x14, 0x94, 0x18, 0x98, 0x54]

/-- R75: the lower end of `range(d)`. -/
def rangeMin (d : Byte) : Int := if descSigned d then -(2 ^ (8 * descWidth d - 1)) else 0

/-- R75: the upper end of `range(d)`. -/
def rangeMax (d : Byte) : Int :=
  if descSigned d then 2 ^ (8 * descWidth d - 1) - 1 else 2 ^ (8 * descWidth d) - 1

/-- R75: `n ∈ range(d)`. -/
def inRange (d : Byte) (n : Int) : Bool := decide (rangeMin d ≤ n) && decide (n ≤ rangeMax d)

/-- A value the descriptor can encode: the right lane kind, and in range (R103). -/
def PVal.fits (d : Byte) : PVal → Bool
  | .int n => !descFloat d && inRange d n
  | .f32 _ => descFloat d

/-! ### Elements (R103, R104) and payloads (R105 to R107) -/

/-- R103 `enc_elem(d, v)`. -/
def encElem (d : Byte) (v : PVal) : Except Status (List Byte) :=
  if descFloat d then
    match v with
    | .f32 bits => .ok (leBytes 4 bits.toNat)
    | .int _ => .error .encodingError
  else
    match v with
    | .f32 _ => .error .encodingError
    | .int n =>
      if inRange d n then .ok (leBytes (descWidth d) (n % 2 ^ (8 * descWidth d)).toNat)
      else .error .encodingError

/-- R104 `dec_elem(d, s)`. -/
def decElem (d : Byte) (s : List Byte) : PVal :=
  if descFloat d then .f32 (BitVec.ofNat 32 (le s))
  else if descSigned d then .int (sle (descWidth d) s)
  else .int (le s)

/-- R105, R106: the elements of the values in value order, with nothing between them. -/
def encValues (d : Byte) : List PVal → Except Status (List Byte)
  | [] => .ok []
  | v :: vs =>
    match encElem d v with
    | .error e => .error e
    | .ok s =>
      match encValues d vs with
      | .error e => .error e
      | .ok out => .ok (s ++ out)

/-- R105, R143: the descriptor check, the elements, and the limit on the payload's bytes. -/
def encPayload (limit : Nat) (d : Byte) (vs : List PVal) : Except Status (List Byte) :=
  if !descValid d then .error .invalidPayloadType
  else
    match encValues d vs with
    | .error e => .error e
    | .ok out => if limit < out.length then .error .encodingError else .ok out

/-- R107: the elements of a payload, read one after another. -/
def decValues (d : Byte) (bs : List Byte) : List PVal :=
  (List.range (bs.length / descWidth d)).map fun i =>
    decElem d (slice bs (i * descWidth d) (descWidth d))

/-- R107 after its descriptor check, the `PDEC-body` of R170. -/
def decBody (d : Byte) (bs : List Byte) : Except Status (List PVal) :=
  if bs.length % descWidth d ≠ 0 then .error .decodingError else .ok (decValues d bs)

/-- R107. -/
def decPayload (d : Byte) (bs : List Byte) : Except Status (List PVal) :=
  if !descValid d then .error .invalidPayloadType else decBody d bs

/-! ### Request frames (R61, R142, R143) -/

/-- R142: the Read request frame. -/
def encodeRead (a p d : Byte) : Except Status (List Byte) :=
  if !descValid d then .error .invalidPayloadType
  else .ok (withChecksum [0x01, 0x04, a, p, d])

/-- R143: the Write request frame over an encoded payload. -/
def writeFrame (a p d : Byte) (pl : List Byte) : List Byte :=
  withChecksum ([0x02, BitVec.ofNat 8 (4 + pl.length), a, p, d] ++ pl)

/-- R143. -/
def encodeWrite (a p d : Byte) (vs : List PVal) : Except Status (List Byte) :=
  match encPayload Config.reqPayloadMax d vs with
  | .error e => .error e
  | .ok pl => .ok (writeFrame a p d pl)

/-! ### Reply frames (R62, R70, R170 to R176) -/

/-- R70, R175 `kind(t)`. -/
def msgKind (t : Byte) : Option MsgKind :=
  if t = 0x01 then some .read
  else if t = 0x02 then some .write
  else if t = 0x03 then some .event
  else if t = 0x09 then some .readError
  else if t = 0x0A then some .writeError
  else none

/-- R62, R170 `H`: the bytes before the payload, 11 in layout T and 5 in layout N. -/
def headerLen (p : TsPolicy) (raw : List Byte) : Nat :=
  match p with
  | .always => 11
  | .gated => if descTs (byteAt raw 4) then 11 else 5

/-- R170: too few bytes for the header, the timestamp (if any) and the checksum. -/
def belowMinimum (p : TsPolicy) (raw : List Byte) : Bool :=
  match p with
  | .always => decide (raw.length < 12)
  | .gated => decide (raw.length < 6) || decide (raw.length < headerLen .gated raw + 1)

/-- R170, R173: the timestamp fields of layout T, absent in layout N. -/
def replyTimestamp (p : TsPolicy) (raw : List Byte) : Option Timestamp :=
  if headerLen p raw = 11 then
    some { seconds := BitVec.ofNat 32 (le (slice raw 5 4)), ticks := BitVec.ofNat 16 (le (slice raw 9 2)) }
  else none

/-- R171: the bytes between the header (with its timestamp, if any) and the checksum. -/
def replyPayload (p : TsPolicy) (raw : List Byte) : List Byte :=
  (raw.take (raw.length - 1)).drop (headerLen p raw)

/-- R170 DECR, its checks in the rule's order (R310). -/
def decodeReply (p : TsPolicy) (raw : List Byte) : Except Status Reply :=
  if belowMinimum p raw then .error .truncatedFrame
  else if raw.length < 2 + (byteAt raw 1).toNat then .error .truncatedFrame
  else if raw.length > 2 + (byteAt raw 1).toNat then .error .frameLengthMismatch
  else if byteAt raw (raw.length - 1) ≠ checksum (raw.take (raw.length - 1)) then
    .error .checksumMismatch
  else
    match msgKind (byteAt raw 0) with
    | none => .error .invalidMessageType
    | some kind =>
      match decPayload (byteAt raw 4) (replyPayload p raw) with
      | .error e => .error e
      | .ok vals =>
        .ok { kind := kind, msgType := byteAt raw 0, length := byteAt raw 1, address := byteAt raw 2,
              port := byteAt raw 3, payloadType := byteAt raw 4, timestamp := replyTimestamp p raw,
              payload := replyPayload p raw, values := vals, checksum := byteAt raw (raw.length - 1) }

/-! ### Result records (R84) -/

/-- R305: a failing operation returns its status and nothing else. -/
def Result.fail (e : Status) : Result := { status := e }

/-- R84: status `OK`, no field set (RST). -/
def Result.done : Result := { status := .ok }

/-- The result of an operation that raises a status or returns a value. -/
def Result.ofExcept {α : Type} (f : α → Result) : Except Status α → Result
  | .error e => .fail e
  | .ok x => f x

/-- R84 `bytes`. -/
def Result.ofBytes (bs : List Byte) : Result := { status := .ok, bytes := bs }

/-- R84 `values`. -/
def Result.ofValues (vs : List PVal) : Result := { status := .ok, values := vs }

/-- R84 `desc`. -/
def Result.ofDesc (d : Desc) : Result := { status := .ok, desc := some d }

/-- R84 `cs`. -/
def Result.ofCs (c : Byte) : Result := { status := .ok, cs := some c }

/-- R84 `reply`. -/
def Result.ofReply (r : Reply) : Result := { status := .ok, reply := some r }

/-- R84 `word`. -/
def Result.ofWord (w : Word) : Result := { status := .ok, word := some w }

end Sys2Proof
end

