-- ==== Sys2Proof/WellFormed.lean ====
section
/-! DEFINITION. Well-formedness of instructions: the limits of 30_encoding.md R81 on counts, `LANE_RANGE`
(R12), and the illegality of a command exactly as R82 lists its cases. -/

namespace Sys2Proof

/-- R12: an integer value lies in `LANE_RANGE`. -/
def PVal.wf : PVal → Bool
  | .int n => decide (Config.laneMin ≤ n) && decide (n ≤ Config.laneMax)
  | .f32 _ => true

/-- R81: at most `NVAL_MAX` values, each one a lane can carry. -/
def valuesWf (vs : List PVal) : Bool := decide (vs.length ≤ Config.nvalMax) && vs.all PVal.wf

/-! ### Illegal commands (R82) -/

/-- R81: the number of lanes a command announces. -/
def laneCount (c : List Byte) : Nat :=
  if byteAt c 0 = 0x02 then (byteAt c 2).toNat
  else if byteAt c 0 = 0x06 then (byteAt c 4).toNat
  else 0

/-- R81: where a command's lanes begin. -/
def laneStart (c : List Byte) : Nat := if byteAt c 0 = 0x02 then 3 else 5

/-- R81: the `u16` count a command announces. -/
def byteCount (c : List Byte) : Nat :=
  if byteAt c 0 = 0x03 then le [byteAt c 2, byteAt c 3]
  else if byteAt c 0 = 0x04 ∨ byteAt c 0 = 0x07 then le [byteAt c 1, byteAt c 2]
  else 0

/-- R81: the largest count an op code admits. -/
def byteLimit (c : List Byte) : Nat :=
  if byteAt c 0 = 0x03 then Config.payloadMax else Config.frameMax

/-- R81, R89: the length `m` an op code and its counts fix. A count byte that is not there reads as 0
here, and the length fixed is then already more than the bytes there are. -/
def commandLength (c : List Byte) : Nat :=
  if byteAt c 0 = 0x01 then 2
  else if byteAt c 0 = 0x02 then 3 + 9 * laneCount c
  else if byteAt c 0 = 0x03 then 4 + byteCount c
  else if byteAt c 0 = 0x04 then 3 + byteCount c
  else if byteAt c 0 = 0x05 then 4
  else if byteAt c 0 = 0x06 then 5 + 9 * laneCount c
  else if byteAt c 0 = 0x07 then 3 + byteCount c
  else 1

/-- R83: a lane whose kind byte is not 0, 1 or 2, or a float lane with a nonzero high half. -/
def laneMalformed (l : List Byte) : Bool :=
  if byteAt l 0 = 0x00 ∨ byteAt l 0 = 0x01 then false
  else if byteAt l 0 = 0x02 then
    !(byteAt l 5 == 0 && byteAt l 6 == 0 && byteAt l 7 == 0 && byteAt l 8 == 0)
  else true

/-- R82 (a): the high half of the op byte is not 0. -/
def illegalHigh (c : List Byte) : Bool := (byteAt c 0).extractLsb' 4 4 != 0

/-- R82 (b): the op code is 0x0 or 0xA to 0xF. -/
def illegalOp (c : List Byte) : Bool :=
  (byteAt c 0).extractLsb' 0 4 == 0 || decide (0xA ≤ ((byteAt c 0).extractLsb' 0 4).toNat)

/-- R82 (c): the length is not the one the op code and the counts fix. -/
def illegalLength (c : List Byte) : Bool := c.length != commandLength c

/-- R82 (d): a `u16` count over its limit. -/
def illegalCount (c : List Byte) : Bool := decide (byteLimit c < byteCount c)

/-- R82 (e): a malformed lane. -/
def illegalLane (c : List Byte) : Bool :=
  (List.range (laneCount c)).any fun j => laneMalformed (slice c (laneStart c + 9 * j) 9)

/-- R82: a command is illegal in any of the five cases. A command of no bytes has no op byte and is no
legal command of R81 (R85; log entry 10). -/
def illegalCommand (c : List Byte) : Bool :=
  c.isEmpty || illegalHigh c || illegalOp c || illegalLength c || illegalCount c || illegalLane c

/-! ### Instructions -/

/-- What an instruction's operands meet when it is one that a word stands for. No word stands for
RX_RESERVED: the decoder refuses event code 3 by name (R87; log entry 9). The empty byte string is a
REPLY_UNASSIGNED (log entry 10). -/
def Instr.wf : Instr → Bool
  | .ptyp _ => true
  | .penc _ vs => valuesWf vs
  | .pdec _ bs => decide (bs.length ≤ Config.payloadMax)
  | .csum bs => decide (bs.length ≤ Config.frameMax)
  | .encr _ _ _ => true
  | .encw _ _ _ vs => valuesWf vs
  | .decr raw => decide (raw.length ≤ Config.frameMax)
  | .rst => true
  | .stat => true
  | .illegal c => illegalCommand c
  | .rxByte _ => true
  | .rxTimeout => true
  | .rxClosed => true
  | .rxReserved => false
  | .readReq _ _ d => descValid d
  | .writeReq _ _ d vs =>
    descValid d && vs.all (PVal.fits d) && decide (vs.length * descWidth d ≤ Config.reqPayloadMax)
  | .read rest => decide (rest.length + 1 ≤ Config.frameMax)
  | .write rest => decide (rest.length + 1 ≤ Config.frameMax)
  | .event rest => decide (rest.length + 1 ≤ Config.frameMax)
  | .readError rest => decide (rest.length + 1 ≤ Config.frameMax)
  | .writeError rest => decide (rest.length + 1 ≤ Config.frameMax)
  | .replyUnassigned raw =>
    decide (raw.length ≤ Config.frameMax) && (raw.isEmpty || msgKind (byteAt raw 0) == none)
  | .u8 => true
  | .tu8 => true
  | .s8 => true
  | .ts8 => true
  | .u16 => true
  | .tu16 => true
  | .s16 => true
  | .ts16 => true
  | .u32 => true
  | .tu32 => true
  | .s32 => true
  | .ts32 => true
  | .u64 => true
  | .tu64 => true
  | .s64 => true
  | .ts64 => true
  | .float => true
  | .tfloat => true
  | .ptIllegal d => !descValid d

end Sys2Proof
end

