-- ==== Sys2Proof/Decode.lean ====
section
/-! DEFINITION. The decoder, total on any bytes in each of the five encoding spaces of
spec/opcode_table.json, the encoder written from the same tables (R61, R62, R73, R81, R83, R86), and the
reading of a bare table word. -/

namespace Sys2Proof

/-! ### Lanes (R83) -/

/-- R83: the value of one lane `k b_0 … b_7`; none where the lane is malformed. -/
def decodeLane (k b0 b1 b2 b3 b4 b5 b6 b7 : Byte) : Option PVal :=
  if k = 0x00 then some (.int (le [b0, b1, b2, b3, b4, b5, b6, b7]))
  else if k = 0x01 then some (.int ((le [b0, b1, b2, b3, b4, b5, b6, b7] : Int) - 2 ^ 64))
  else if k = 0x02 then
    if b4 = 0 ∧ b5 = 0 ∧ b6 = 0 ∧ b7 = 0 then some (.f32 (BitVec.ofNat 32 (le [b0, b1, b2, b3])))
    else none
  else none

/-- R81: exactly `n` lanes and nothing after them. -/
def decodeLanes : Nat → List Byte → Option (List PVal)
  | 0, [] => some []
  | 0, _ :: _ => none
  | n + 1, k :: b0 :: b1 :: b2 :: b3 :: b4 :: b5 :: b6 :: b7 :: rest =>
    match decodeLane k b0 b1 b2 b3 b4 b5 b6 b7 with
    | none => none
    | some v =>
      match decodeLanes n rest with
      | none => none
      | some vs => some (v :: vs)
  | _ + 1, _ => none

/-- R83: the one lane of a value. -/
def encodeLane : PVal → List Byte
  | .int n => if 0 ≤ n then 0x00 :: leBytes 8 n.toNat else 0x01 :: leBytes 8 (n + 2 ^ 64).toNat
  | .f32 bits => 0x02 :: (leBytes 4 bits.toNat ++ [0, 0, 0, 0])

/-! ### Commands (R80 to R82, R85) -/

/-- The counted bytes of PDEC, CSUM and DECR (R81): the `u16` count equals the number of bytes and does
not exceed the limit. -/
def decodeCounted (limit : Nat) (nL nH : Byte) (bs : List Byte) : Option (List Byte) :=
  if le [nL, nH] ≤ limit ∧ bs.length = le [nL, nH] then some bs else none

/-- R81: the legal command a byte string is; none where it is illegal. -/
def parseCommand : List Byte → Option Instr
  | [] => none
  | op :: args =>
    if op = 0x01 then
      match args with
      | [d] => some (.ptyp d)
      | _ => none
    else if op = 0x02 then
      match args with
      | d :: n :: lanes => (decodeLanes n.toNat lanes).map (.penc d)
      | _ => none
    else if op = 0x03 then
      match args with
      | d :: nL :: nH :: bs => (decodeCounted Config.payloadMax nL nH bs).map (.pdec d)
      | _ => none
    else if op = 0x04 then
      match args with
      | nL :: nH :: bs => (decodeCounted Config.frameMax nL nH bs).map .csum
      | _ => none
    else if op = 0x05 then
      match args with
      | [a, p, d] => some (.encr a p d)
      | _ => none
    else if op = 0x06 then
      match args with
      | a :: p :: d :: n :: lanes => (decodeLanes n.toNat lanes).map (.encw a p d)
      | _ => none
    else if op = 0x07 then
      match args with
      | nL :: nH :: bs => (decodeCounted Config.frameMax nL nH bs).map .decr
      | _ => none
    else if op = 0x08 then
      match args with
      | [] => some .rst
      | _ => none
    else if op = 0x09 then
      match args with
      | [] => some .stat
      | _ => none
    else none

/-- R85: total on byte strings; every byte string that is no legal command is the ILLEGAL row. -/
def decodeCommand (c : List Byte) : Instr :=
  match parseCommand c with
  | some i => i
  | none => .illegal c

/-! ### Receive words (R86, R87) -/

/-- The decoder of raw receive-port words: one of the three receive events (R86; the data byte is
ignored but in RX_BYTE). Event code 3 is refused by name (R87). -/
def decodeReceive (ev : BitVec 2) (b : Byte) : Except DecodeError RxEvent :=
  if ev = 0 then .ok (.rxByte b)
  else if ev = 1 then .ok .rxTimeout
  else if ev = 2 then .ok .rxClosed
  else .error .reservedReceiveEvent

/-! ### Request frames (R61 to R64) -/

/-- R61: the request a well-formed request frame is; every other byte string is rejected by name. -/
def decodeRequest (f : List Byte) : Except DecodeError Instr :=
  if f.length < 6 then .error .requestTooShort
  else if f.length ≠ 2 + (byteAt f 1).toNat then .error .requestLength
  else if byteAt f (f.length - 1) ≠ checksum (f.take (f.length - 1)) then .error .requestChecksum
  else if !descValid (byteAt f 4) then .error .requestDescriptor
  else if byteAt f 0 = 0x01 then
    if f.length = 6 then .ok (.readReq (byteAt f 2) (byteAt f 3) (byteAt f 4))
    else .error .requestLength
  else if byteAt f 0 = 0x02 then
    match decBody (byteAt f 4) ((f.take (f.length - 1)).drop 5) with
    | .error _ => .error .requestPayload
    | .ok vs => .ok (.writeReq (byteAt f 2) (byteAt f 3) (byteAt f 4) vs)
  else .error .requestType

/-! ### Reply frames (R62, R70) -/

/-- R70: the row of a received frame, by its type byte alone. DESIGN CHOICE (log entry 10): the empty
byte string has no type byte, and the model reads it as the REPLY_UNASSIGNED row. -/
def decodeReplyRow : List Byte → Instr
  | [] => .replyUnassigned []
  | t :: rest =>
    if t = 0x01 then .read rest
    else if t = 0x02 then .write rest
    else if t = 0x03 then .event rest
    else if t = 0x09 then .readError rest
    else if t = 0x0A then .writeError rest
    else .replyUnassigned (t :: rest)

/-! ### Descriptor bytes (R73, R74) -/

/-- R73: the row of a descriptor byte; every other byte is PT_ILLEGAL (R74). -/
def decodeDescriptor (d : Byte) : Instr :=
  if d = 0x01 then .u8
  else if d = 0x11 then .tu8
  else if d = 0x81 then .s8
  else if d = 0x91 then .ts8
  else if d = 0x02 then .u16
  else if d = 0x12 then .tu16
  else if d = 0x82 then .s16
  else if d = 0x92 then .ts16
  else if d = 0x04 then .u32
  else if d = 0x14 then .tu32
  else if d = 0x84 then .s32
  else if d = 0x94 then .ts32
  else if d = 0x08 then .u64
  else if d = 0x18 then .tu64
  else if d = 0x88 then .s64
  else if d = 0x98 then .ts64
  else if d = 0x44 then .float
  else if d = 0x54 then .tfloat
  else .ptIllegal d

/-! ### The decoder -/

/-- The decoder, total: an instruction or a rejection by name. -/
def decode : Encoded → Except DecodeError Instr
  | .command c => .ok (decodeCommand c)
  | .receive ev b => (decodeReceive ev b).map RxEvent.instr
  | .requestFrame f => decodeRequest f
  | .replyFrame f =>
    if Config.frameMax < f.length then .error .replyTooLong else .ok (decodeReplyRow f)
  | .descriptor d => .ok (decodeDescriptor d)

/-! ### The encoder -/

/-- R81: a `u16` count, little-endian. -/
def encodeCount (n : Nat) : List Byte := leBytes 2 n

/-- R81: the value count and the lanes. -/
def encodeLanes (vs : List PVal) : List Byte := BitVec.ofNat 8 vs.length :: vs.flatMap encodeLane

/-- The payload bytes of values the descriptor can encode (R103, R106); the bytes of values it cannot
encode are none (WRITE_REQ is then not well formed). -/
def payloadBytes (d : Byte) (vs : List PVal) : List Byte :=
  match encValues d vs with
  | .ok out => out
  | .error _ => []

/-- The words of a well-formed instruction. An operand the event does not use is 0 (R86). RX_RESERVED is
not well formed; its word is the one its row of the table gives, which the decoder refuses. -/
def encode : Instr → Encoded
  | .ptyp d => .command [0x01, d]
  | .penc d vs => .command (0x02 :: d :: encodeLanes vs)
  | .pdec d bs => .command (0x03 :: d :: (encodeCount bs.length ++ bs))
  | .csum bs => .command (0x04 :: (encodeCount bs.length ++ bs))
  | .encr a p d => .command [0x05, a, p, d]
  | .encw a p d vs => .command (0x06 :: a :: p :: d :: encodeLanes vs)
  | .decr raw => .command (0x07 :: (encodeCount raw.length ++ raw))
  | .rst => .command [0x08]
  | .stat => .command [0x09]
  | .illegal c => .command c
  | .rxByte b => .receive 0 b
  | .rxTimeout => .receive 1 0
  | .rxClosed => .receive 2 0
  | .rxReserved => .receive 3 0
  | .readReq a p d => .requestFrame (withChecksum [0x01, 0x04, a, p, d])
  | .writeReq a p d vs => .requestFrame (writeFrame a p d (payloadBytes d vs))
  | .read rest => .replyFrame (0x01 :: rest)
  | .write rest => .replyFrame (0x02 :: rest)
  | .event rest => .replyFrame (0x03 :: rest)
  | .readError rest => .replyFrame (0x09 :: rest)
  | .writeError rest => .replyFrame (0x0A :: rest)
  | .replyUnassigned raw => .replyFrame raw
  | .u8 => .descriptor 0x01
  | .tu8 => .descriptor 0x11
  | .s8 => .descriptor 0x81
  | .ts8 => .descriptor 0x91
  | .u16 => .descriptor 0x02
  | .tu16 => .descriptor 0x12
  | .s16 => .descriptor 0x82
  | .ts16 => .descriptor 0x92
  | .u32 => .descriptor 0x04
  | .tu32 => .descriptor 0x14
  | .s32 => .descriptor 0x84
  | .ts32 => .descriptor 0x94
  | .u64 => .descriptor 0x08
  | .tu64 => .descriptor 0x18
  | .s64 => .descriptor 0x88
  | .ts64 => .descriptor 0x98
  | .float => .descriptor 0x44
  | .tfloat => .descriptor 0x54
  | .ptIllegal d => .descriptor d

/-! ### Pseudo-operations (R91) -/

/-- R91: `ENCR <addr>, <desc>` supplies the default port. -/
def pseudoEncr (a d : Byte) : Instr := .encr a Config.defaultPort d

/-- R91: `ENCW <addr>, <desc>, [<vals>]` supplies the default port. -/
def pseudoEncw (a d : Byte) (vs : List PVal) : Instr := .encw a Config.defaultPort d vs

/-- R91 `RXS`: one RX_BYTE for each byte of a stream fragment. -/
def pseudoRxs (bs : List Byte) : List Instr := bs.map .rxByte

/-- R91 `RXF`: one whole frame delivered in order. -/
def pseudoRxf (f : List Byte) : List Instr := pseudoRxs f

/-! ### A bare table word

A row of spec/opcode_table.json gives its first byte (or its 2-bit event code) only, and the same byte is
a row in several spaces (0x01 is PTYP, READ_REQ, READ and U8). The word alone does not name its space.
Log entry 6 says how it is read. -/

/-- R81: a command's bytes with every operand byte that is not given 0. -/
def padCommand (given : List Byte) : List Byte :=
  given ++ List.replicate (commandLength given - given.length) 0

/-- The item a table word of `nbits` bits stands for (log entry 6). Fewer than 8 bits: the event code of
a receive word. Otherwise, by its first byte: a command where a command row has that op byte; the
WRITE_ERROR frame for 0x0A; the descriptor where the byte is a legal one and the word has no more bytes;
and the ILLEGAL command for every other byte. -/
def tableItem (nbits w : Nat) : Encoded :=
  if nbits < 8 then .receive (BitVec.ofNat 2 w) 0
  else if 1 ≤ w % 256 ∧ w % 256 ≤ 9 then .command (padCommand (leBytes ((nbits + 7) / 8) w))
  else if nbits = 8 ∧ w % 256 = 0x0A then .replyFrame [0x0A, 0x00]
  else if nbits = 8 ∧ descValid (BitVec.ofNat 8 w) then .descriptor (BitVec.ofNat 8 w)
  else .command (leBytes ((nbits + 7) / 8) w)

/-- The instruction the decoder reads from a table word; none where it rejects. -/
def decodeTableWord (nbits w : Nat) : Option Instr :=
  match decode (tableItem nbits w) with
  | .ok i => some i
  | .error _ => none

end Sys2Proof
end

