-- ==== Sys2Proof/Machine/State.lean ====
section
/-! DEFINITION. The state of the block as plain data: the receive state (10_state.md R20 to R24), the
build-time parameter (R26), and three lists of the model's own: the stimuli still to come, the results
returned and the output events emitted (log entries 1 and 4). -/

namespace Sys2Proof.Machine

/-- R21: the four values of `rx_state`. -/
inductive RxState
  | idle
  | haveType
  | body
  | failed
  deriving DecidableEq, Repr

/-- R24: the values of `rx_fault`. Code 3 is reserved and never written (U12). -/
inductive RxFault
  | none
  | truncated
  | streamClosed
  deriving DecidableEq, Repr

/-- The defined entries of `rx_buf`: (index, byte) pairs with strictly rising indices below 257
(`Memory.wf`). An index that is not listed holds an unspecified value (R23). -/
abbrev Memory := List Host.Cell

/-- R20: the receive state, which is the whole architectural state of the block. -/
structure Receive where
  rxState : RxState
  rxLen : Byte
  rxCnt : Byte
  rxFault : RxFault
  rxBuf : Memory
  deriving DecidableEq, Repr

/-- What can happen to the block from outside: the block reset input (R330), or an item one of the
agents drives (R16). Log entry 11 for the reset input. -/
inductive Stimulus
  | reset
  | item (e : Encoded)
  deriving DecidableEq, Repr

/-- The whole state of the model. -/
structure State where
  rx : Receive
  tsPolicy : TsPolicy
  pending : List Stimulus
  results : List Result
  outputs : List RxOut
  deriving DecidableEq, Repr

/-- Why the machine stops with a fault: never. Every error of the block is a status in a result (R302)
and every reader fault is a state change (R303); the block raises no address, alignment, access or
permission fault (R312) and has no trap (R314). Safe: there is no constructor to raise. -/
inductive Fault
  deriving DecidableEq, Repr

/-- Why an item has no meaning. -/
inductive Refusal
  /-- Raised by no arm of exec: every instruction has its meaning. Safe. -/
  | notModelled (mnemonic : String)
  /-- Raised by step, for an item the decoder rejects: `undecodable reservedReceiveEvent` for a receive
  word with event code 3 (R87), the others for a byte string presented as a request frame or a reply frame
  that is the encoding of no row (log entry 5). Raised also by RX_RESERVED, as
  `undecodable reservedReceiveEvent` (R87; log entry 9). Safe. -/
  | undecodable (why : DecodeError)
  deriving DecidableEq, Repr

/-- R34: the reset values of the receive state; no entry of `rx_buf` is defined. -/
def Receive.clear : Receive :=
  { rxState := .idle, rxLen := 0, rxCnt := 0, rxFault := .none, rxBuf := [] }

/-- The machine right after reset (R34, R330), built with the default `TS_POLICY` (D13), before any
stimulus (log entries 1, 2, 4). -/
def State.reset : State :=
  { rx := Receive.clear, tsPolicy := TsPolicy.default, pending := [], results := [], outputs := [] }

/-- A block built with a given `TS_POLICY`, right after reset, with the stimuli it will meet. -/
def State.boot (p : TsPolicy) (inputs : List Stimulus) : State :=
  { State.reset with tsPolicy := p, pending := inputs }

end Sys2Proof.Machine
end

