-- ==== Sys2Proof/Machine/Ops.lean ====
section
/-! DEFINITION. The named operations over state that the meanings share: reading and writing `rx_buf`
(R56), taking a reader fault and leaving it (R303, R315), returning a result (R84), emitting an output
event (R88), the block reset (R330), and fetching the next stimulus. -/

namespace Sys2Proof.Machine

/-! ### The receive frame buffer (R23, R53, R56) -/

/-- The defined value at an index, if any. -/
def Memory.read? : Memory → Nat → Option Byte
  | [], _ => none
  | (a, b) :: m, i => if a = i then some b else Memory.read? m i

/-- Writes one entry and keeps the indices strictly rising. -/
def Memory.write : Memory → Nat → Byte → Memory
  | [], i, v => [(i, v)]
  | (a, b) :: m, i, v =>
    if i < a then (i, v) :: (a, b) :: m
    else if i = a then (i, v) :: m
    else (a, b) :: Memory.write m i v

/-- Indices strictly rising, from `lo` on. -/
def Memory.rising : Nat → Memory → Bool
  | _, [] => true
  | lo, (a, _) :: m => decide (lo ≤ a) && Memory.rising (a + 1) m

/-- The canonical form: indices strictly rising and all in 0..256 (R53). No listed entry equals what an
unlisted index reads as, since an unlisted index has no defined value. -/
def Memory.wf (m : Memory) : Bool :=
  Memory.rising 0 m && m.all fun c => decide (c.1 < Config.frameMax)

/-- R23: entry `i` of `rx_buf`; an entry no rule defines holds the free value (log entry 3). -/
def rxLoad (m : Memory) (i : Nat) : Byte := (m.read? i).getD (Config.unspecifiedRxByte i)

/-- R56: stores a byte at index `i`. There is no entry past index 256 (R53) and no address fault
(R312): a store past the end, which no reachable state makes, stores nothing (log entry 7). -/
def rxStore (m : Memory) (i : Nat) (b : Byte) : Memory :=
  if i < Config.frameMax then m.write i b else m

/-- R56: reads out `rx_buf[0 .. n − 1]` whole. -/
def rxFrame (m : Memory) (n : Nat) : List Byte := (List.range n).map (rxLoad m)

/-! ### Taking a reader fault, and leaving it (R303, R315) -/

/-- R302: the status code a reader fault carries. -/
def RxFault.status : RxFault → Status
  | .none => .ok
  | .truncated => .truncatedFrame
  | .streamClosed => .streamClosed

/-- R303: the reader takes a fault. It enters `FAILED` with `rx_fault` set; `rx_len`, `rx_cnt` and the
defined part of `rx_buf` keep their values (R22, R202). The output event is `FAULT(code)`. -/
def enterFailed (f : RxFault) (r : Receive) : Receive × Option RxOut :=
  ({ r with rxState := .failed, rxFault := f }, some (.fault f.status))

/-! ### Ports -/

/-- R84: returns a result record on the command port. Nothing else changes. -/
def State.respond (s : State) (r : Result) : State := { s with results := s.results ++ [r] }

/-- R88: what a receive event does: the new receive state, and at most one output event. -/
def State.receive (s : State) (step : Receive × Option RxOut) : State :=
  { s with rx := step.1, outputs := s.outputs ++ step.2.toList }

/-- R330, R331: every piece of the receive state takes its reset value; `TS_POLICY` does not change and
nothing is emitted (R210). It is also the return from a reader fault (R315). -/
def State.clearReceive (s : State) : State := { s with rx := Receive.clear }

/-- The next stimulus and the state without it (log entry 1). -/
def State.fetch (s : State) : Option (Stimulus × State) :=
  match s.pending with
  | [] => none
  | x :: rest => some (x, { s with pending := rest })

/-- Places a stimulus where the next step fetches. -/
def State.place (s : State) (x : Stimulus) : State := { s with pending := x :: s.pending }

end Sys2Proof.Machine
end

