-- ==== Sys2Proof/Machine/Frame.lean ====
section
/-! DEFINITION. The checksum unit's and the FrameCodec's commands (41_frame_encode.md,
42_frame_decode.md), and the illegal command (30_encoding.md R82). Each changes no receive state (R27). -/

namespace Sys2Proof.Machine

/-- R141 CSUM. -/
def execCsum (bs : List Byte) (s : State) : Host.Outcome State Fault Refusal :=
  .next (s.respond (Result.ofCs (checksum bs)))

/-- R142 ENCR. -/
def execEncr (a p d : Byte) (s : State) : Host.Outcome State Fault Refusal :=
  .next (s.respond (Result.ofExcept Result.ofBytes (encodeRead a p d)))

/-- R143 ENCW. -/
def execEncw (a p d : Byte) (vs : List PVal) (s : State) : Host.Outcome State Fault Refusal :=
  .next (s.respond (Result.ofExcept Result.ofBytes (encodeWrite a p d vs)))

/-- R170 DECR. -/
def execDecr (raw : List Byte) (s : State) : Host.Outcome State Fault Refusal :=
  .next (s.respond (Result.ofExcept Result.ofReply (decodeReply s.tsPolicy raw)))

/-- R82: status `IllegalOperation`, with no other effect. -/
def execIllegal (_c : List Byte) (s : State) : Host.Outcome State Fault Refusal :=
  .next (s.respond (Result.fail .illegalOperation))

end Sys2Proof.Machine
end

