-- ==== Sys2Proof/Machine/Payload.lean ====
section
/-! DEFINITION. The PayloadCodec's commands (40_payload_codec.md). Each reads its operands alone and
changes no receive state (R27). -/

namespace Sys2Proof.Machine

/-- R102 PTYP. -/
def execPtyp (d : Byte) (s : State) : Host.Outcome State Fault Refusal :=
  .next (s.respond (if descValid d then Result.ofDesc (descFields d) else Result.fail .invalidPayloadType))

/-- R105 PENC. -/
def execPenc (d : Byte) (vs : List PVal) (s : State) : Host.Outcome State Fault Refusal :=
  .next (s.respond (Result.ofExcept Result.ofBytes (encPayload Config.payloadMax d vs)))

/-- R107 PDEC. -/
def execPdec (d : Byte) (bs : List Byte) (s : State) : Host.Outcome State Fault Refusal :=
  .next (s.respond (Result.ofExcept Result.ofValues (decPayload d bs)))

end Sys2Proof.Machine
end

