-- ==== Sys2Proof/Machine/Flags.lean ====
section
/-! DEFINITION. The block has no flags or condition codes (R31). Its one status register is STATUS
(10_state.md R25), computed from the receive state and `TS_POLICY`. -/

namespace Sys2Proof.Machine

/-- R21: the code of `rx_state`. -/
def RxState.code : RxState → BitVec 2
  | .idle => 0
  | .haveType => 1
  | .body => 2
  | .failed => 3

/-- R24: the code of `rx_fault`. -/
def RxFault.code : RxFault → BitVec 2
  | .none => 0
  | .truncated => 1
  | .streamClosed => 2

/-- R211: `rx_state | (rx_fault << 2) | (rx_len << 8) | (rx_cnt << 16) | (TS_GATED << 24)`. -/
def statusWord (s : State) : Word :=
  s.rx.rxState.code.setWidth 32
    ||| (s.rx.rxFault.code.setWidth 32 <<< 2)
    ||| (s.rx.rxLen.setWidth 32 <<< 8)
    ||| (s.rx.rxCnt.setWidth 32 <<< 16)
    ||| (s.tsPolicy.code.setWidth 32 <<< 24)

end Sys2Proof.Machine
end

