-- ==== Sys2Proof/Machine/Reader.lean ====
section
/-! DEFINITION. The FrameReader's events and the receive control commands (43_frame_reader.md). -/

namespace Sys2Proof.Machine

/-! ### The reader's transitions over the receive state -/

/-- R201, `IDLE`: the byte is a frame's type byte. -/
def takeType (b : Byte) (r : Receive) : Receive × Option RxOut :=
  ({ r with rxBuf := rxStore r.rxBuf 0 b, rxLen := 0, rxCnt := 0, rxState := .haveType }, none)

/-- R201: a frame is complete. It is emitted, and the reader is at a frame boundary, where no entry of
`rx_buf` is defined (R23). -/
def finishFrame (buf : Memory) (n : Nat) (r : Receive) : Receive × Option RxOut :=
  ({ r with rxBuf := [], rxLen := 0, rxCnt := 0, rxState := .idle }, some (.frame (rxFrame buf n)))

/-- R201, `HAVE_TYPE`: the byte is the length byte; 0 ends the frame at once. -/
def takeLength (b : Byte) (r : Receive) : Receive × Option RxOut :=
  if b = 0 then finishFrame (rxStore r.rxBuf 1 b) 2 r
  else ({ r with rxBuf := rxStore r.rxBuf 1 b, rxCnt := 0, rxLen := b, rxState := .body }, none)

/-- R201, `BODY`: the byte is one of the `rx_len` bytes that follow; the last one ends the frame. -/
def takeBody (b : Byte) (r : Receive) : Receive × Option RxOut :=
  if r.rxCnt + 1 = r.rxLen then
    finishFrame (rxStore r.rxBuf (2 + r.rxCnt.toNat) b) (2 + r.rxLen.toNat) r
  else ({ r with rxBuf := rxStore r.rxBuf (2 + r.rxCnt.toNat) b, rxCnt := r.rxCnt + 1 }, none)

/-- R201. In `FAILED` nothing changes and nothing is emitted (R204). -/
def takeByte (b : Byte) (r : Receive) : Receive × Option RxOut :=
  match r.rxState with
  | .idle => takeType b r
  | .haveType => takeLength b r
  | .body => takeBody b r
  | .failed => (r, none)

/-- R202. -/
def takeTimeout (r : Receive) : Receive × Option RxOut :=
  match r.rxState with
  | .idle => (r, some .noFrame)
  | .haveType => enterFailed .truncated r
  | .body => enterFailed .truncated r
  | .failed => (r, none)

/-- R203. -/
def takeClosed (r : Receive) : Receive × Option RxOut :=
  match r.rxState with
  | .idle => enterFailed .streamClosed r
  | .haveType => enterFailed .truncated r
  | .body => enterFailed .truncated r
  | .failed => (r, none)

/-- R88: the receive step: the new receive state, and at most one output event. -/
def receiveStep : RxEvent → Receive → Receive × Option RxOut
  | .rxByte b => takeByte b
  | .rxTimeout => takeTimeout
  | .rxClosed => takeClosed

/-! ### Meanings -/

/-- R201 RX_BYTE. -/
def execRxByte (b : Byte) (s : State) : Host.Outcome State Fault Refusal :=
  .next (s.receive (takeByte b s.rx))

/-- R202 RX_TIMEOUT. -/
def execRxTimeout (s : State) : Host.Outcome State Fault Refusal :=
  .next (s.receive (takeTimeout s.rx))

/-- R203 RX_CLOSED. -/
def execRxClosed (s : State) : Host.Outcome State Fault Refusal :=
  .next (s.receive (takeClosed s.rx))

/-- R87: receive event code 3 has no meaning. The decoder refuses its word by this name, so no step runs
this row (log entry 9). -/
def execRxReserved (_s : State) : Host.Outcome State Fault Refusal :=
  .refused (.undecodable .reservedReceiveEvent)

/-- R210 RST: the receive state takes its reset values; status `OK`, no result field, no output. -/
def execRst (s : State) : Host.Outcome State Fault Refusal :=
  .next (s.clearReceive.respond Result.done)

/-- R211 STAT. -/
def execStat (s : State) : Host.Outcome State Fault Refusal :=
  .next (s.respond (Result.ofWord (statusWord s)))

end Sys2Proof.Machine
end

