-- ==== Sys2Proof/Machine/Wire.lean ====
section
/-! DEFINITION. The wire encodings of spec/opcode_table.json presented to the unit that owns them (log
entry 5): a request frame to the encoder that builds it (R142, R143), a reply frame to the decoder that
takes it apart (R170, R175), a descriptor byte to the validator that unpacks it (R73, R101). None changes
the receive state (R27). -/

namespace Sys2Proof.Machine

/-! ### Request frames: the encoder builds the frame -/

/-- R61, R142: the Read request frame of an address, a port and a descriptor. -/
def execReadReq (a p d : Byte) (s : State) : Host.Outcome State Fault Refusal :=
  .next (s.respond (Result.ofExcept Result.ofBytes (encodeRead a p d)))

/-- R61, R143: the Write request frame of an address, a port, a descriptor and its values. -/
def execWriteReq (a p d : Byte) (vs : List PVal) (s : State) : Host.Outcome State Fault Refusal :=
  .next (s.respond (Result.ofExcept Result.ofBytes (encodeWrite a p d vs)))

/-! ### Reply frames: the decoder takes the frame apart -/

/-- R170: the result of decoding a received frame under the block's `TS_POLICY`. -/
def replyResult (s : State) (raw : List Byte) : Result :=
  Result.ofExcept Result.ofReply (decodeReply s.tsPolicy raw)

/-- R175: a Read reply, type 0x01. -/
def execRead (rest : List Byte) (s : State) : Host.Outcome State Fault Refusal :=
  .next (s.respond (replyResult s (0x01 :: rest)))

/-- R175: a Write reply, type 0x02. -/
def execWrite (rest : List Byte) (s : State) : Host.Outcome State Fault Refusal :=
  .next (s.respond (replyResult s (0x02 :: rest)))

/-- R175: an Event, type 0x03. -/
def execEvent (rest : List Byte) (s : State) : Host.Outcome State Fault Refusal :=
  .next (s.respond (replyResult s (0x03 :: rest)))

/-- R175: a ReadError, type 0x09. -/
def execReadError (rest : List Byte) (s : State) : Host.Outcome State Fault Refusal :=
  .next (s.respond (replyResult s (0x09 :: rest)))

/-- R175: a WriteError, type 0x0A. -/
def execWriteError (rest : List Byte) (s : State) : Host.Outcome State Fault Refusal :=
  .next (s.respond (replyResult s (0x0A :: rest)))

/-- R70: a frame of an unassigned type. The decoder raises `InvalidMessageType` where its length and
checksum are right, and the earlier error where they are not (R310). The empty byte string is this row too
(log entry 10), and gives `TruncatedFrame`. -/
def execReplyUnassigned (raw : List Byte) (s : State) : Host.Outcome State Fault Refusal :=
  .next (s.respond (replyResult s raw))

/-! ### Descriptor bytes: the validator unpacks the byte

Each row's fields are written from R73's table; that they are `descFields` of the row's byte is a
statement of its own. -/

/-- R73: U8. -/
def execU8 (s : State) : Host.Outcome State Fault Refusal :=
  .next (s.respond (Result.ofDesc ⟨1, false, false, false⟩))

/-- R73: TU8. -/
def execTu8 (s : State) : Host.Outcome State Fault Refusal :=
  .next (s.respond (Result.ofDesc ⟨1, false, false, true⟩))

/-- R73: S8. -/
def execS8 (s : State) : Host.Outcome State Fault Refusal :=
  .next (s.respond (Result.ofDesc ⟨1, true, false, false⟩))

/-- R73: TS8. -/
def execTs8 (s : State) : Host.Outcome State Fault Refusal :=
  .next (s.respond (Result.ofDesc ⟨1, true, false, true⟩))

/-- R73: U16. -/
def execU16 (s : State) : Host.Outcome State Fault Refusal :=
  .next (s.respond (Result.ofDesc ⟨2, false, false, false⟩))

/-- R73: TU16. -/
def execTu16 (s : State) : Host.Outcome State Fault Refusal :=
  .next (s.respond (Result.ofDesc ⟨2, false, false, true⟩))

/-- R73: S16. -/
def execS16 (s : State) : Host.Outcome State Fault Refusal :=
  .next (s.respond (Result.ofDesc ⟨2, true, false, false⟩))

/-- R73: TS16. -/
def execTs16 (s : State) : Host.Outcome State Fault Refusal :=
  .next (s.respond (Result.ofDesc ⟨2, true, false, true⟩))

/-- R73: U32. -/
def execU32 (s : State) : Host.Outcome State Fault Refusal :=
  .next (s.respond (Result.ofDesc ⟨4, false, false, false⟩))

/-- R73: TU32. -/
def execTu32 (s : State) : Host.Outcome State Fault Refusal :=
  .next (s.respond (Result.ofDesc ⟨4, false, false, true⟩))

/-- R73: S32. -/
def execS32 (s : State) : Host.Outcome State Fault Refusal :=
  .next (s.respond (Result.ofDesc ⟨4, true, false, false⟩))

/-- R73: TS32. -/
def execTs32 (s : State) : Host.Outcome State Fault Refusal :=
  .next (s.respond (Result.ofDesc ⟨4, true, false, true⟩))

/-- R73: U64. -/
def execU64 (s : State) : Host.Outcome State Fault Refusal :=
  .next (s.respond (Result.ofDesc ⟨8, false, false, false⟩))

/-- R73: TU64. -/
def execTu64 (s : State) : Host.Outcome State Fault Refusal :=
  .next (s.respond (Result.ofDesc ⟨8, false, false, true⟩))

/-- R73: S64. -/
def execS64 (s : State) : Host.Outcome State Fault Refusal :=
  .next (s.respond (Result.ofDesc ⟨8, true, false, false⟩))

/-- R73: TS64. -/
def execTs64 (s : State) : Host.Outcome State Fault Refusal :=
  .next (s.respond (Result.ofDesc ⟨8, true, false, true⟩))

/-- R73: Float. -/
def execFloat (s : State) : Host.Outcome State Fault Refusal :=
  .next (s.respond (Result.ofDesc ⟨4, false, true, false⟩))

/-- R73: TFloat. -/
def execTfloat (s : State) : Host.Outcome State Fault Refusal :=
  .next (s.respond (Result.ofDesc ⟨4, false, true, true⟩))

/-- R74: an illegal descriptor byte raises `InvalidPayloadType`. -/
def execPtIllegal (_d : Byte) (s : State) : Host.Outcome State Fault Refusal :=
  .next (s.respond (Result.fail .invalidPayloadType))

end Sys2Proof.Machine
end

