-- ==== Sys2Proof/Machine/Dispatch.lean ====
section
/-! DEFINITION. One arm for each row of spec/opcode_table.json, in the table's order. -/

namespace Sys2Proof.Machine

def exec (i : Instr) (s : State) : Host.Outcome State Fault Refusal :=
  match i with
  | .ptyp d => Sys2Proof.Machine.execPtyp d s
  | .penc d vs => Sys2Proof.Machine.execPenc d vs s
  | .pdec d bs => Sys2Proof.Machine.execPdec d bs s
  | .csum bs => Sys2Proof.Machine.execCsum bs s
  | .encr a p d => Sys2Proof.Machine.execEncr a p d s
  | .encw a p d vs => Sys2Proof.Machine.execEncw a p d vs s
  | .decr raw => Sys2Proof.Machine.execDecr raw s
  | .rst => Sys2Proof.Machine.execRst s
  | .stat => Sys2Proof.Machine.execStat s
  | .illegal c => Sys2Proof.Machine.execIllegal c s
  | .rxByte b => Sys2Proof.Machine.execRxByte b s
  | .rxTimeout => Sys2Proof.Machine.execRxTimeout s
  | .rxClosed => Sys2Proof.Machine.execRxClosed s
  | .rxReserved => Sys2Proof.Machine.execRxReserved s
  | .readReq a p d => Sys2Proof.Machine.execReadReq a p d s
  | .writeReq a p d vs => Sys2Proof.Machine.execWriteReq a p d vs s
  | .read rest => Sys2Proof.Machine.execRead rest s
  | .write rest => Sys2Proof.Machine.execWrite rest s
  | .event rest => Sys2Proof.Machine.execEvent rest s
  | .readError rest => Sys2Proof.Machine.execReadError rest s
  | .writeError rest => Sys2Proof.Machine.execWriteError rest s
  | .replyUnassigned raw => Sys2Proof.Machine.execReplyUnassigned raw s
  | .u8 => Sys2Proof.Machine.execU8 s
  | .tu8 => Sys2Proof.Machine.execTu8 s
  | .s8 => Sys2Proof.Machine.execS8 s
  | .ts8 => Sys2Proof.Machine.execTs8 s
  | .u16 => Sys2Proof.Machine.execU16 s
  | .tu16 => Sys2Proof.Machine.execTu16 s
  | .s16 => Sys2Proof.Machine.execS16 s
  | .ts16 => Sys2Proof.Machine.execTs16 s
  | .u32 => Sys2Proof.Machine.execU32 s
  | .tu32 => Sys2Proof.Machine.execTu32 s
  | .s32 => Sys2Proof.Machine.execS32 s
  | .ts32 => Sys2Proof.Machine.execTs32 s
  | .u64 => Sys2Proof.Machine.execU64 s
  | .tu64 => Sys2Proof.Machine.execTu64 s
  | .s64 => Sys2Proof.Machine.execS64 s
  | .ts64 => Sys2Proof.Machine.execTs64 s
  | .float => Sys2Proof.Machine.execFloat s
  | .tfloat => Sys2Proof.Machine.execTfloat s
  | .ptIllegal d => Sys2Proof.Machine.execPtIllegal d s

end Sys2Proof.Machine
end

