-- ==== Sys2Proof/Machine/Step.lean ====
section
/-! DEFINITION. One step of the model: the next stimulus takes its whole effect (R341). -/

namespace Sys2Proof.Machine

/-- Decodes an item and performs it; an item the decoder rejects is refused by name (R87; log entry 5). -/
def runItem (e : Encoded) (s : State) : Host.Outcome State Fault Refusal :=
  match decode e with
  | .ok i => exec i s
  | .error why => .refused (.undecodable why)

/-- R16, R80: a step of the host command agent, which issues the command `c`. -/
def hostStep (c : List Byte) (s : State) : Host.Outcome State Fault Refusal :=
  runItem (.command c) s

/-- R16, R86, R88: a step of the receive source agent, which delivers one receive event. It always has a
next state. -/
def sourceStep (e : RxEvent) (s : State) : State := s.receive (receiveStep e s.rx)

/-- One step of whichever agent is next, or of the reset input (R330). Where nothing is pending nothing
happens: all state persists (R322; log entry 1). -/
def step (s : State) : Host.Outcome State Fault Refusal :=
  match s.fetch with
  | none => .next s
  | some (.reset, s') => .next s'.clearReceive
  | some (.item e, s') => runItem e s'

/-- `s` with the item a table word stands for presented next (log entry 6). -/
def State.withFetchWord (s : State) (nbits w : Nat) : State :=
  s.place (.item (tableItem nbits w))

end Sys2Proof.Machine
end

