-- ==== Sys2Proof/Machine/Assembly.lean ====
section
/-! DEFINITION. The textual syntax of commands and receive events (30_encoding.md R90) and the expansion
of the pseudo-operations (R91), over lists of characters. No step reads text: this is notation (D27; log
entry 12). -/

namespace Sys2Proof.Assembly

/-- R90: the lexical pieces. A word is any run of other characters. -/
inductive Token
  | word (w : List Char)
  | comma
  | openList
  | closeList
  | openBytes
  | closeBytes
  deriving DecidableEq, Repr

/-- The token of a punctuation character. The two braces are given by their numbers. -/
def punctuation (c : Char) : Option Token :=
  if c = ',' then some .comma
  else if c = '[' then some .openList
  else if c = ']' then some .closeList
  else if c.toNat = 123 then some .openBytes
  else if c.toNat = 125 then some .closeBytes
  else none

/-- Ends the word being read, if there is one. -/
def endWord (w : List Char) (ts : List Token) : List Token :=
  if w.isEmpty then ts else .word w :: ts

/-- The tokens of a text; `w` is the word being read. -/
def tokens : List Char → List Char → List Token
  | w, [] => endWord w []
  | w, c :: cs =>
    if c = ' ' then endWord w (tokens [] cs)
    else
      match punctuation c with
      | some t => endWord w (t :: tokens [] cs)
      | none => tokens (w ++ [c]) cs

/-! ### Literals -/

def decDigit (c : Char) : Option Nat :=
  if 48 ≤ c.toNat ∧ c.toNat ≤ 57 then some (c.toNat - 48) else none

def hexDigit (c : Char) : Option Nat :=
  if 48 ≤ c.toNat ∧ c.toNat ≤ 57 then some (c.toNat - 48)
  else if 65 ≤ c.toNat ∧ c.toNat ≤ 70 then some (c.toNat - 55)
  else if 97 ≤ c.toNat ∧ c.toNat ≤ 102 then some (c.toNat - 87)
  else none

/-- The number of a digit string, most significant digit first. -/
def digits (base : Nat) (digit : Char → Option Nat) : Nat → List Char → Option Nat
  | acc, [] => some acc
  | acc, c :: cs =>
    match digit c with
    | none => none
    | some d => digits base digit (acc * base + d) cs

/-- A number without a sign: `0x` and hex digits, or decimal digits. DESIGN CHOICE (log entry 12): one or
more digits of either kind, leading zeros among them. -/
def number : List Char → Option Nat
  | [] => none
  | '0' :: 'x' :: c :: cs => digits 16 hexDigit 0 (c :: cs)
  | cs => digits 10 decDigit 0 cs

/-- R90: an integer literal with an optional sign. DESIGN CHOICE (log entry 12): the sign is `-` or `+`,
and the literal after it is decimal or `0x`-hex. -/
def integer : List Char → Option Int
  | '-' :: cs => (number cs).map fun n => -(n : Int)
  | '+' :: cs => (number cs).map fun n => (n : Int)
  | cs => (number cs).map fun n => (n : Int)

/-- A number that is a byte (R8). -/
def asByte (n : Nat) : Option Byte := if n < 256 then some (BitVec.ofNat 8 n) else none

/-- R90 `<byte>`, `<addr>`, `<port>`: a byte literal. -/
def byteLit (w : List Char) : Option Byte := (number w).bind asByte

/-- R90: a byte in hex inside a byte list, with no `0x`. DESIGN CHOICE (log entry 12): R90 fixes no number
of digits; any number of them is taken whose value is below 256. -/
def hexByte (w : List Char) : Option Byte := (digits 16 hexDigit 0 w).bind asByte

/-- R90: `f32:0xHHHHHHHH`, exactly eight hex digits, is an F32 lane; otherwise an integer in
`LANE_RANGE` is an Int lane. -/
def value : List Char → Option PVal
  | 'f' :: '3' :: '2' :: ':' :: '0' :: 'x' :: h =>
    if h.length = 8 then (digits 16 hexDigit 0 h).map fun n => .f32 (BitVec.ofNat 32 n) else none
  | w =>
    match integer w with
    | none => none
    | some n => if (PVal.int n).wf then some (.int n) else none

/-- R73: the names of the descriptors. -/
def descNames : List (List Char × Byte) :=
  [(['U', '8'], 0x01), (['S', '8'], 0x81), (['U', '1', '6'], 0x02), (['S', '1', '6'], 0x82),
   (['U', '3', '2'], 0x04), (['S', '3', '2'], 0x84), (['U', '6', '4'], 0x08), (['S', '6', '4'], 0x88),
   (['F', 'l', 'o', 'a', 't'], 0x44), (['T', 'U', '8'], 0x11), (['T', 'S', '8'], 0x91),
   (['T', 'U', '1', '6'], 0x12), (['T', 'S', '1', '6'], 0x92), (['T', 'U', '3', '2'], 0x14),
   (['T', 'S', '3', '2'], 0x94), (['T', 'U', '6', '4'], 0x18), (['T', 'S', '6', '4'], 0x98),
   (['T', 'F', 'l', 'o', 'a', 't'], 0x54)]

/-- R90 `<desc>`: a name of R73 or a byte literal; any byte may be written. -/
def descLit (w : List Char) : Option Byte :=
  match descNames.lookup w with
  | some d => some d
  | none => byteLit w

/-! ### Lists -/

/-- The bytes of `<byte> <byte> …` up to the closing brace, which ends the text. -/
def bytesTail : List Token → Option (List Byte)
  | [.closeBytes] => some []
  | .word w :: ts =>
    match hexByte w with
    | none => none
    | some b => (bytesTail ts).map (b :: ·)
  | _ => none

/-- R90: a byte list in braces. -/
def byteList : List Token → Option (List Byte)
  | .openBytes :: ts => bytesTail ts
  | _ => none

/-- The values after the first, up to the closing bracket, which ends the text. -/
def valuesTail : List Token → Option (List PVal)
  | [.closeList] => some []
  | .comma :: .word w :: ts =>
    match value w with
    | none => none
    | some v => (valuesTail ts).map (v :: ·)
  | _ => none

/-- R90: a value list in brackets. -/
def valueList : List Token → Option (List PVal)
  | [.openList, .closeList] => some []
  | .openList :: .word w :: ts =>
    match value w with
    | none => none
    | some v => (valuesTail ts).map (v :: ·)
  | _ => none

/-! ### Operations -/

/-- R90: the operands of the operations that take a byte list. -/
def withBytes (f : List Byte → List Instr) (ts : List Token) : Option (List Instr) :=
  (byteList ts).map f

/-- R90, R91: the instructions a line stands for, from its mnemonic and its operands. A line whose
instruction would not be well formed (a list over its limit, R81) is none. -/
def operation (mnemonic : List Char) (ts : List Token) : Option (List Instr) :=
  if mnemonic = ['P', 'T', 'Y', 'P'] then
    match ts with
    | [.word d] => (descLit d).map fun d => [.ptyp d]
    | _ => none
  else if mnemonic = ['P', 'E', 'N', 'C'] then
    match ts with
    | .word d :: .comma :: vs =>
      (descLit d).bind fun d => (valueList vs).map fun vs => [.penc d vs]
    | _ => none
  else if mnemonic = ['P', 'D', 'E', 'C'] then
    match ts with
    | .word d :: .comma :: bs => (descLit d).bind fun d => withBytes (fun bs => [.pdec d bs]) bs
    | _ => none
  else if mnemonic = ['C', 'S', 'U', 'M'] then withBytes (fun bs => [.csum bs]) ts
  else if mnemonic = ['D', 'E', 'C', 'R'] then withBytes (fun bs => [.decr bs]) ts
  else if mnemonic = ['E', 'N', 'C', 'R'] then
    match ts with
    | [.word a, .comma, .word p, .comma, .word d] =>
      (byteLit a).bind fun a => (byteLit p).bind fun p => (descLit d).map fun d => [.encr a p d]
    | [.word a, .comma, .word d] =>
      (byteLit a).bind fun a => (descLit d).map fun d => [pseudoEncr a d]
    | _ => none
  else if mnemonic = ['E', 'N', 'C', 'W'] then
    match ts with
    | .word a :: .comma :: .word p :: .comma :: .word d :: .comma :: vs =>
      (byteLit a).bind fun a => (byteLit p).bind fun p => (descLit d).bind fun d =>
        (valueList vs).map fun vs => [.encw a p d vs]
    | .word a :: .comma :: .word d :: .comma :: vs =>
      (byteLit a).bind fun a => (descLit d).bind fun d =>
        (valueList vs).map fun vs => [pseudoEncw a d vs]
    | _ => none
  else if mnemonic = ['R', 'S', 'T'] then if ts.isEmpty then some [.rst] else none
  else if mnemonic = ['S', 'T', 'A', 'T'] then if ts.isEmpty then some [.stat] else none
  else if mnemonic = ['R', 'X', 'B'] then
    match ts with
    | [.word b] => (byteLit b).map fun b => [.rxByte b]
    | _ => none
  else if mnemonic = ['R', 'X', 'T', 'O'] then if ts.isEmpty then some [.rxTimeout] else none
  else if mnemonic = ['R', 'X', 'C', 'L'] then if ts.isEmpty then some [.rxClosed] else none
  else if mnemonic = ['R', 'X', 'S'] then withBytes pseudoRxs ts
  else if mnemonic = ['R', 'X', 'F'] then withBytes pseudoRxf ts
  else none

/-- R90, R91: the instructions of one line of text, or none where the line is not of the syntax. -/
def assemble (text : List Char) : Option (List Instr) :=
  match tokens [] text with
  | .word m :: ts => (operation m ts).bind fun is => if is.all Instr.wf then some is else none
  | _ => none

end Sys2Proof.Assembly
end

