-- ==== Sys2Proof/Safety.lean ====
section
/-! DEFINITION. The invariants of the receive state that the rules give (R22 to R24), the states a run
can reach, and the kinds of instruction that statements speak of. -/

namespace Sys2Proof.Machine

/-- R22, R23: how many entries of `rx_buf` are defined. In `FAILED` it is the number at the fault:
none where the stream closed at a boundary, one where only the type byte had come (`rx_len` is then 0),
and the frame so far otherwise. -/
def Receive.definedLen (r : Receive) : Nat :=
  match r.rxState with
  | .idle => 0
  | .haveType => 1
  | .body => 2 + r.rxCnt.toNat
  | .failed =>
    if r.rxFault = .streamClosed then 0 else if r.rxLen = 0 then 1 else 2 + r.rxCnt.toNat

/-- R22: `rx_len` and `rx_cnt` in each reader state. -/
abbrev Receive.CountsOk (r : Receive) : Prop :=
  (r.rxState = .idle → r.rxLen = 0 ∧ r.rxCnt = 0)
    ∧ (r.rxState = .haveType → r.rxLen = 0 ∧ r.rxCnt = 0)
    ∧ (r.rxState = .body → r.rxCnt.toNat < r.rxLen.toNat)
    ∧ (r.rxState = .failed →
        (r.rxLen = 0 ∧ r.rxCnt = 0) ∨ (r.rxFault = .truncated ∧ r.rxCnt.toNat < r.rxLen.toNat))

/-- R24: `rx_fault = NONE ⇔ rx_state ≠ FAILED`. -/
abbrev Receive.FaultOk (r : Receive) : Prop := r.rxFault = .none ↔ r.rxState ≠ .failed

/-- R23: the defined entries are exactly those from index 0 up to `definedLen`. -/
abbrev Receive.BufferOk (r : Receive) : Prop :=
  r.rxBuf.map Prod.fst = List.range r.definedLen

/-- R22 to R24: what holds of the receive state in every reachable state. -/
abbrev Receive.Inv (r : Receive) : Prop := r.CountsOk ∧ r.FaultOk ∧ r.BufferOk

/-- The states a block can reach: built with either `TS_POLICY`, reset, and driven by any stimuli in any
order (R47). -/
inductive Reachable : State → Prop
  | boot (p : TsPolicy) (inputs : List Stimulus) : Reachable (State.boot p inputs)
  | step {s t : State} : Reachable s → Machine.step s = .next t → Reachable t

/-- `k` steps, stopping at the first refusal: the host's `core.run` on the model's own names
(`runSteps_eq_run` in Laws/State.lean). -/
def runSteps : Nat → State → Host.Outcome State Fault Refusal
  | 0, s => .next s
  | k + 1, s =>
    match step s with
    | .next t => runSteps k t
    | .fault r => .fault r
    | .refused r => .refused r

/-- The bytes received so far of the frame in progress: `rx_partial` of R23. -/
def Receive.partialFrame (r : Receive) : List Byte := r.rxBuf.map Prod.snd

/-- R63: a byte sequence whose length is what its length byte says. -/
abbrev IsFrame (f : List Byte) : Prop := 2 ≤ f.length ∧ f.length = 2 + (byteAt f 1).toNat

/-- The bytes of a stream fragment as RX_BYTE stimuli (R91 `RXS`). -/
def byteStimuli (bs : List Byte) : List Stimulus := bs.map fun b => .item (.receive 0 b)

/-- R202, R203: the two events that end a stream's bytes: a zero-byte read, and a closed stream. The data
byte of either is ignored (R86). -/
def endStimulus (closed : Bool) (b : Byte) : Stimulus :=
  .item (.receive (if closed then 2 else 1) b)

/-- A command other than RST (`08`), on the command port (R80). -/
def Stimulus.isQuietCommand : Stimulus → Bool
  | .item (.command c) => c != [0x08]
  | _ => false

/-! ### The spec's descriptions of encoded values, stated apart from the codec's own definitions -/

/-- R40, R103: byte `i` of an element. Byte 0 holds bits [7:0]; a negative integer is its two's complement,
whose base-256 digits are those of the integer under division rounding down. -/
def elementByte (v : PVal) (i : Nat) : Byte :=
  match v with
  | .int n => BitVec.ofInt 8 (n / 2 ^ (8 * i))
  | .f32 bits => bits.extractLsb' (8 * i) 8

/-- R40: the `width(d)` bytes of an element, lowest index first. -/
def elementBytes (d : Byte) (v : PVal) : List Byte := (List.range (descWidth d)).map (elementByte v)

/-- R106: the elements in value order, with nothing between them. -/
def payloadOf (d : Byte) (vs : List PVal) : List Byte := vs.flatMap (elementBytes d)

/-- R104: the value of an element, by its descriptor. -/
def elementValue (d : Byte) (s : List Byte) : PVal :=
  if d.getLsbD 6 then .f32 (BitVec.ofNat 32 (le s))
  else if d.getLsbD 7 ∧ 2 ^ (8 * descWidth d - 1) ≤ le s then .int ((le s : Int) - 2 ^ (8 * descWidth d))
  else .int (le s)

/-- R107: the values of a payload: one for each `width(d)` bytes, in order. -/
def elementValues (d : Byte) (bs : List Byte) : List PVal :=
  (List.range (bs.length / descWidth d)).map fun i =>
    elementValue d (slice bs (i * descWidth d) (descWidth d))

/-- R70: the five assigned message types with their kinds. -/
def assignedTypes : List (Byte × MsgKind) :=
  [(0x01, .read), (0x02, .write), (0x03, .event), (0x09, .readError), (0x0A, .writeError)]

/-- R62: layout T is used where the timestamp is always present or bit 4 gates it in. -/
def UsesLayoutT (p : TsPolicy) (d : Byte) : Prop := p = .always ∨ d.getLsbD 4 = true

/-- R62: a reply frame in layout T, its checksum included (R64). -/
def layoutT (t a p d : Byte) (ts : Timestamp) (pl : List Byte) : List Byte :=
  withChecksum ([t, BitVec.ofNat 8 (10 + pl.length), a, p, d] ++ leBytes 4 ts.seconds.toNat
    ++ leBytes 2 ts.ticks.toNat ++ pl)

/-- R62: a reply frame in layout N, its checksum included (R64). -/
def layoutN (t a p d : Byte) (pl : List Byte) : List Byte :=
  withChecksum ([t, BitVec.ofNat 8 (4 + pl.length), a, p, d] ++ pl)

end Sys2Proof.Machine
end

