-- ==== Sys2Proof/Certificates/Slice0/Obligations.lean ====
section
/-! DEFINITION. The statements for the provers. Each docstring names the rule a statement formalises. A
result record is written out field by field and the next state as the old one with the changed fields, so
every statement of a result is also its frame: whatever is not written there is unchanged. -/

open Sys2Proof Sys2Proof.Machine

/-! ### Reset and status -/

/-- R34: the reset values, whichever `TS_POLICY` the block was built with. No entry of `rx_buf` holds a
defined value; STATUS is 0 under ALWAYS and `0x01000000` under GATED; `TS_POLICY` keeps the value the block
was built with. RST leaves the same values. -/
def Obligations.ResetValues : Prop :=
  ∀ (p : TsPolicy) (inputs : List Stimulus),
    (State.boot p inputs).rx.rxState = .idle ∧ (State.boot p inputs).rx.rxLen = 0
      ∧ (State.boot p inputs).rx.rxCnt = 0 ∧ (State.boot p inputs).rx.rxFault = .none
      ∧ (∀ i, (State.boot p inputs).rx.rxBuf.read? i = none)
      ∧ (State.boot p inputs).tsPolicy = p
      ∧ statusWord (State.boot p inputs) = (match p with | .always => 0x00000000 | .gated => 0x01000000)
      ∧ ∀ s t : State, s.tsPolicy = p → exec .rst s = .next t →
          t.rx = (State.boot p inputs).rx ∧ t.tsPolicy = p
            ∧ statusWord t = statusWord (State.boot p inputs)

/-- R330, R331: the block reset input gives every piece of the receive state its reset value, and the RST
command leaves the same receive state. That the input is a stimulus which takes a step of its own, and that
this step adds no result and no output, is the model's choice (log entry 11; R84 has a result record come
of a command, and R88 an output event of a receive event). -/
def Obligations.BlockResetStep : Prop :=
  ∀ (s : State) (rest : List Stimulus), s.pending = .reset :: rest →
    step s = .next { s with
      pending := rest
      rx := { rxState := .idle, rxLen := 0, rxCnt := 0, rxFault := .none, rxBuf := [] } }
    ∧ ∀ t, exec .rst s = .next t → ∀ u, step s = .next u → t.rx = u.rx ∧ t.tsPolicy = u.tsPolicy

/-- R25: the fields of STATUS, with the numbers R21 gives the reader states and R24 the faults; its reserved
bits; and the bound on `RX_CNT` in the states the rules of the receive state admit. -/
def Obligations.StatusWordFields : Prop :=
  ∀ s : State,
    (statusWord s).extractLsb' 0 2
        = (match s.rx.rxState with | .idle => 0 | .haveType => 1 | .body => 2 | .failed => 3)
      ∧ (statusWord s).extractLsb' 2 2
        = (match s.rx.rxFault with | .none => 0 | .truncated => 1 | .streamClosed => 2)
      ∧ (statusWord s).extractLsb' 4 4 = 0
      ∧ (statusWord s).extractLsb' 8 8 = s.rx.rxLen
      ∧ (statusWord s).extractLsb' 16 8 = s.rx.rxCnt
      ∧ (statusWord s).extractLsb' 24 1 = (match s.tsPolicy with | .always => 0 | .gated => 1)
      ∧ (statusWord s).extractLsb' 25 7 = 0
      ∧ (s.rx.Inv → ((statusWord s).extractLsb' 16 8).toNat ≤ 254)

/-- R211: STAT returns STATUS and changes nothing else, in any reader state. The numbers of the reader
states are R21's and those of the faults R24's. -/
def Obligations.StatReturnsStatus : Prop :=
  ∀ s : State, decode (.command [0x09]) = .ok .stat
    ∧ exec .stat s = .next { s with
        results := s.results ++ [{ status := .ok, word := some <|
          ((match s.rx.rxState with | .idle => 0 | .haveType => 1 | .body => 2 | .failed => 3 : Word)
            ||| ((match s.rx.rxFault with | .none => 0 | .truncated => 1 | .streamClosed => 2 : Word)
              <<< 2)
            ||| (s.rx.rxLen.setWidth 32 <<< 8) ||| (s.rx.rxCnt.setWidth 32 <<< 16)
            ||| ((if s.tsPolicy = .gated then (1 : Word) else 0) <<< 24)) }] }

/-- R210: RST resets the receive state, returns `OK` with no result field and emits nothing. -/
def Obligations.RstResetsReader : Prop :=
  ∀ s : State, decode (.command [0x08]) = .ok .rst
    ∧ exec .rst s = .next { s with
        rx := { rxState := .idle, rxLen := 0, rxCnt := 0, rxFault := .none, rxBuf := [] }
        results := s.results ++ [{ status := .ok }] }

/-! ### Invariants and whole-machine rules -/

/-- R22 to R24 hold at reset, whatever the parameter and the stimuli to come. -/
def Obligations.ReaderInvAtReset : Prop :=
  ∀ (p : TsPolicy) (inputs : List Stimulus), (State.boot p inputs).rx.Inv

/-- R22 to R24: every step keeps the rules of the receive state, from any state that meets them. -/
def Obligations.StepKeepsReaderInv : Prop :=
  ∀ s t : State, s.rx.Inv → step s = .next t → t.rx.Inv

/-- R22 to R24 in every reachable state, and with them the canonical form of the buffer. -/
def Obligations.ReachableReaderInv : Prop :=
  ∀ s : State, Reachable s → s.rx.Inv ∧ s.rx.rxBuf.wf = true

/-- R26: no step changes `TS_POLICY`. -/
def Obligations.StepKeepsTsPolicy : Prop :=
  ∀ s t : State, step s = .next t → t.tsPolicy = s.tsPolicy

/-- R212: the reader's state transitions, exactly those listed: each of them happens, on the byte, event or
command the rule gives, and no instruction makes another. -/
def Obligations.ReaderTransitions : Prop :=
  (∀ (i : Instr) (s t : State), exec i s = .next t →
    t.rx.rxState = s.rx.rxState
      ∨ (s.rx.rxState = .idle ∧ t.rx.rxState = .haveType ∧ ∃ b, i = .rxByte b)
      ∨ (s.rx.rxState = .haveType ∧ t.rx.rxState = .idle ∧ i = .rxByte 0)
      ∨ (s.rx.rxState = .haveType ∧ t.rx.rxState = .body ∧ ∃ b, b ≠ 0 ∧ i = .rxByte b)
      ∨ (s.rx.rxState = .body ∧ t.rx.rxState = .idle ∧ s.rx.rxCnt + 1 = s.rx.rxLen ∧ ∃ b, i = .rxByte b)
      ∨ ((s.rx.rxState = .haveType ∨ s.rx.rxState = .body) ∧ t.rx.rxState = .failed
          ∧ (i = .rxTimeout ∨ i = .rxClosed))
      ∨ (s.rx.rxState = .idle ∧ t.rx.rxState = .failed ∧ i = .rxClosed)
      ∨ (t.rx.rxState = .idle ∧ i = .rst))
    ∧ (∀ (b : Byte) (s t : State), exec (.rxByte b) s = .next t →
        (s.rx.rxState = .idle → t.rx.rxState = .haveType)
          ∧ (s.rx.rxState = .haveType → t.rx.rxState = if b = 0 then .idle else .body)
          ∧ (s.rx.rxState = .body → s.rx.rxCnt + 1 = s.rx.rxLen → t.rx.rxState = .idle))
    ∧ (∀ s t : State, exec .rxTimeout s = .next t →
        s.rx.rxState = .haveType ∨ s.rx.rxState = .body → t.rx.rxState = .failed)
    ∧ (∀ s t : State, exec .rxClosed s = .next t → t.rx.rxState = .failed)
    ∧ (∀ s t : State, exec .rst s = .next t → t.rx.rxState = .idle)
    ∧ ∀ (s t : State) (rest : List Stimulus), s.pending = .reset :: rest → step s = .next t →
        t.rx.rxState = .idle

/-- R204: in `FAILED` every receive event leaves all state unchanged and emits nothing, and only RST or
the block reset leaves `FAILED`. -/
def Obligations.FailedIsSticky : Prop :=
  ∀ s : State, s.rx.rxState = .failed →
    (∀ b, exec (.rxByte b) s = .next s) ∧ exec .rxTimeout s = .next s ∧ exec .rxClosed s = .next s
      ∧ ∀ t, step s = .next t → t.rx.rxState ≠ .failed →
          s.pending.head? = some .reset ∨ s.pending.head? = some (.item (.command [0x08]))

/-- R27: a command of the datapath reads no block register and writes none. Its result record is a function
of its operands and of `TS_POLICY`: one record for every receive state, every pending stimulus and every
earlier result. The rule's seven commands, and with them the illegal command (R82). -/
def Obligations.DatapathResultFromOperands : Prop :=
  ∀ (i : Instr) (p : TsPolicy), i.format = .command → i ≠ .rst → i ≠ .stat →
    ∃ r : Result, ∀ s : State, s.tsPolicy = p → exec i s = .next { s with results := s.results ++ [r] }

/-- R49: a command other than RST has no side effect, and repeated it gives the same result; two RST in a row leave the same receive state as one and emit nothing. -/
def Obligations.RepeatedCommands : Prop :=
  ∀ (i : Instr) (s t u : State), exec i s = .next t → exec i t = .next u →
    (i.format = .command → i ≠ .rst → ∃ r : Result,
      t.results = s.results ++ [r] ∧ u.results = t.results ++ [r]
        ∧ u.rx = s.rx ∧ u.outputs = s.outputs ∧ u.tsPolicy = s.tsPolicy)
    ∧ (i = .rst → u.rx = t.rx ∧ u.outputs = s.outputs ∧ u.tsPolicy = s.tsPolicy)

/-- R305: a result with a status other than `OK` has every other field empty. -/
def Obligations.ErrorsReturnNothingElse : Prop :=
  ∀ (i : Instr) (s t : State) (r : Result), exec i s = .next t → t.results = s.results ++ [r] →
    r.status ≠ .ok → r = { status := r.status }

/-- R88: a receive event gives a next state with at most one output event added, and returns no result
record, takes no stimulus and changes no parameter. -/
def Obligations.ReceiveEventFrame : Prop :=
  ∀ (s : State) (i : Instr), (∃ b, i = .rxByte b) ∨ i = .rxTimeout ∨ i = .rxClosed →
    ∃ (r : Receive) (o : Option RxOut),
      exec i s = .next { s with rx := r, outputs := s.outputs ++ o.toList }

/-- Every instruction but RX_RESERVED, which no word decodes to (R87), gives a next state, from every state. The block has no trap and no
address, alignment, access or permission fault (R312, R314). -/
def Obligations.EveryInstructionCompletes : Prop :=
  ∀ (i : Instr) (s : State), i ≠ .rxReserved → ∃ t, exec i s = .next t

/-- R300: the numbers of the ten status codes. -/
def Obligations.StatusCodeNumbers : Prop :=
  Status.ok.code = 0x00 ∧ Status.checksumMismatch.code = 0x01 ∧ Status.truncatedFrame.code = 0x02
    ∧ Status.streamClosed.code = 0x03 ∧ Status.invalidPayloadType.code = 0x04
    ∧ Status.encodingError.code = 0x05 ∧ Status.decodingError.code = 0x06
    ∧ Status.invalidMessageType.code = 0x07 ∧ Status.frameLengthMismatch.code = 0x08
    ∧ Status.illegalOperation.code = 0x09 ∧ ∀ st : Status, st.code.toNat < 10

/-! ### The FrameReader -/

/-- R201 in `IDLE`: the byte is stored as the type byte; every other entry reads as before. -/
def Obligations.RxByteTakesType : Prop :=
  ∀ (b : Byte) (s : State), s.rx.rxState = .idle →
    decode (.receive 0 b) = .ok (.rxByte b)
      ∧ ∃ buf : Memory,
        exec (.rxByte b) s = .next { s with
          rx := { s.rx with rxState := .haveType, rxLen := 0, rxCnt := 0, rxBuf := buf } }
        ∧ buf.read? 0 = some b ∧ ∀ j, j ≠ 0 → buf.read? j = s.rx.rxBuf.read? j

/-- R201 in `HAVE_TYPE`: a nonzero byte is stored as the length byte; every other entry reads as before.
A length byte of 0 ends the frame: it is emitted, and the reader is at a boundary, where no entry is
defined (R23; log entry 8). -/
def Obligations.RxByteTakesLength : Prop :=
  ∀ (b : Byte) (s : State), s.rx.rxState = .haveType →
    (b ≠ 0 → ∃ buf : Memory,
      exec (.rxByte b) s = .next { s with
        rx := { s.rx with rxState := .body, rxLen := b, rxCnt := 0, rxBuf := buf } }
      ∧ buf.read? 1 = some b ∧ ∀ j, j ≠ 1 → buf.read? j = s.rx.rxBuf.read? j)
    ∧ (b = 0 → ∀ t0, s.rx.rxBuf.read? 0 = some t0 →
      exec (.rxByte b) s = .next { s with
        rx := { s.rx with rxState := .idle, rxLen := 0, rxCnt := 0, rxBuf := [] }
        outputs := s.outputs ++ [.frame [t0, 0]] })

/-- R201 in `BODY`, in the states the rules of the receive state admit: the byte is stored after the bytes
received so far; the last one ends the frame, which is all of them in order. After it no entry is defined
(R23; log entry 8). -/
def Obligations.RxByteTakesBody : Prop :=
  ∀ (b : Byte) (s : State), s.rx.Inv → s.rx.rxState = .body →
    (s.rx.rxCnt.toNat + 1 ≠ s.rx.rxLen.toNat → ∃ buf : Memory,
      exec (.rxByte b) s = .next { s with
        rx := { s.rx with rxCnt := s.rx.rxCnt + 1, rxBuf := buf } }
      ∧ buf.read? (2 + s.rx.rxCnt.toNat) = some b
      ∧ (∀ j, j ≠ 2 + s.rx.rxCnt.toNat → buf.read? j = s.rx.rxBuf.read? j)
      ∧ buf.map Prod.snd = s.rx.partialFrame ++ [b])
    ∧ (s.rx.rxCnt.toNat + 1 = s.rx.rxLen.toNat →
      exec (.rxByte b) s = .next { s with
        rx := { s.rx with rxState := .idle, rxLen := 0, rxCnt := 0, rxBuf := [] }
        outputs := s.outputs ++ [.frame (s.rx.partialFrame ++ [b])] })

/-- R202, whole: the four reader states. -/
def Obligations.RxTimeoutEffect : Prop :=
  ∀ (b : Byte) (s : State),
    decode (.receive 1 b) = .ok .rxTimeout
      ∧ (s.rx.rxState = .idle → exec .rxTimeout s = .next { s with outputs := s.outputs ++ [.noFrame] })
      ∧ (s.rx.rxState = .haveType ∨ s.rx.rxState = .body →
          exec .rxTimeout s = .next { s with
            rx := { s.rx with rxState := .failed, rxFault := .truncated }
            outputs := s.outputs ++ [.fault .truncatedFrame] })
      ∧ (s.rx.rxState = .failed → exec .rxTimeout s = .next s)

/-- R203, whole: the four reader states. -/
def Obligations.RxClosedEffect : Prop :=
  ∀ (b : Byte) (s : State),
    decode (.receive 2 b) = .ok .rxClosed
      ∧ (s.rx.rxState = .idle →
          exec .rxClosed s = .next { s with
            rx := { s.rx with rxState := .failed, rxFault := .streamClosed }
            outputs := s.outputs ++ [.fault .streamClosed] })
      ∧ (s.rx.rxState = .haveType ∨ s.rx.rxState = .body →
          exec .rxClosed s = .next { s with
            rx := { s.rx with rxState := .failed, rxFault := .truncated }
            outputs := s.outputs ++ [.fault .truncatedFrame] })
      ∧ (s.rx.rxState = .failed → exec .rxClosed s = .next s)

/-- R87: the receive events are exactly three, and the decoder of raw receive-port words gives one of them
for every event code but 3, which it refuses by name. No item decodes to the table's row for code 3, a step
on a word with code 3 stops by that name, and no run of any length goes past one. That the row is an `Instr`
at all, and refuses by the same name when performed, is the model's choice (log entry 9). -/
def Obligations.ReservedEventRefused : Prop :=
  (∀ e : RxEvent, (∃ b, e = .rxByte b) ∨ e = .rxTimeout ∨ e = .rxClosed)
    ∧ (∀ (ev : BitVec 2) (b : Byte), ev ≠ 3 → ∃ e : RxEvent,
        decodeReceive ev b = .ok e ∧ decode (.receive ev b) = .ok e.instr)
    ∧ (∀ b : Byte, decodeReceive 3 b = .error .reservedReceiveEvent
        ∧ decode (.receive 3 b) = .error .reservedReceiveEvent)
    ∧ (∀ e : Encoded, decode e ≠ .ok .rxReserved)
    ∧ (∀ s : State, exec .rxReserved s = .refused (.undecodable .reservedReceiveEvent))
    ∧ ∀ (b : Byte) (s : State) (rest : List Stimulus), s.pending = .item (.receive 3 b) :: rest →
        step s = .refused (.undecodable .reservedReceiveEvent)
          ∧ ∀ n t, runSteps (n + 1) s ≠ .next t

/-- R48, R201, R206: at a frame boundary, the bytes of any number of frames, delivered one by one however
the reads were cut, are emitted as exactly those frames, in stream order, and leave the reader at a frame
boundary. -/
def Obligations.StreamEmitsItsFrames : Prop :=
  ∀ (fs : List (List Byte)) (s : State) (rest : List Stimulus),
    (∀ f ∈ fs, IsFrame f) → s.rx = Receive.clear →
      runSteps fs.flatten.length { s with pending := byteStimuli fs.flatten ++ rest }
        = .next { s with pending := rest, outputs := s.outputs ++ fs.map .frame }

/-- R202, R203, R303: a timeout or a close after some but not all bytes of a frame emits
`FAULT(TruncatedFrame)` once; the reader is `FAILED` and keeps the partial frame, whose length byte and
count STATUS shows. -/
def Obligations.MidFrameEndTruncates : Prop :=
  ∀ (f : List Byte) (k : Nat) (closed : Bool) (b : Byte) (s : State) (rest : List Stimulus),
    IsFrame f → 0 < k → k < f.length → s.rx = Receive.clear →
      ∃ t : State,
        runSteps (k + 1)
            { s with pending := byteStimuli (f.take k) ++ endStimulus closed b :: rest } = .next t
          ∧ t.outputs = s.outputs ++ [.fault .truncatedFrame]
          ∧ t.rx.rxState = .failed ∧ t.rx.rxFault = .truncated
          ∧ t.rx.partialFrame = f.take k
          ∧ t.rx.rxLen = (if 2 ≤ k then byteAt f 1 else 0)
          ∧ t.rx.rxCnt = BitVec.ofNat 8 (k - 2)
          ∧ t.pending = rest ∧ t.results = s.results ∧ t.tsPolicy = s.tsPolicy

/-- R210, R315, R334: from ANY state, RST and then the bytes of a frame give exactly that frame: whatever
the reader was doing is discarded, with no `FAULT` output. -/
def Obligations.RstThenFrameIsEmitted : Prop :=
  ∀ (f : List Byte) (s : State) (rest : List Stimulus), IsFrame f →
    runSteps (1 + f.length)
        { s with pending := .item (.command [0x08]) :: byteStimuli f ++ rest }
      = .next { s with
          pending := rest
          rx := { rxState := .idle, rxLen := 0, rxCnt := 0, rxFault := .none, rxBuf := [] }
          results := s.results ++ [{ status := .ok }]
          outputs := s.outputs ++ [.frame f] }

/-- R27, R47: host commands other than RST, put anywhere among the receive events and resets, change
neither the receive state nor the output sequence: with them taken out, the run ends in the same receive
state with the same outputs. -/
def Obligations.CommandsInvisibleToReader : Prop :=
  ∀ (l : List Stimulus) (s t : State), s.pending = [] →
    runSteps l.length { s with pending := l } = .next t →
      ∃ u : State,
        runSteps (l.filter fun x => !x.isQuietCommand).length
            { s with pending := l.filter fun x => !x.isQuietCommand } = .next u
          ∧ u.rx = t.rx ∧ u.outputs = t.outputs ∧ u.tsPolicy = t.tsPolicy

/-! ### The checksum unit -/

/-- R140: the sum of the bytes modulo 256, in both of the rule's forms; 0 for no bytes. -/
def Obligations.ChecksumForms : Prop :=
  ∀ bs : List Byte,
    (checksum bs).toNat = (bs.map BitVec.toNat).sum % 256
      ∧ checksum bs = bs.foldl (fun acc b => acc + b) 0
      ∧ checksum [] = 0

/-- R141: CSUM of up to 257 bytes returns their checksum; a count over 257 is an illegal command. -/
def Obligations.CsumResult : Prop :=
  ∀ (bs : List Byte) (s : State),
    (bs.length ≤ 257 →
      decode (.command (0x04 :: BitVec.ofNat 8 bs.length :: BitVec.ofNat 8 (bs.length / 256) :: bs))
        = .ok (.csum bs))
      ∧ (∀ nL nH : Byte, 257 < nL.toNat + 256 * nH.toNat →
          decode (.command (0x04 :: nL :: nH :: bs)) = .ok (.illegal (0x04 :: nL :: nH :: bs)))
      ∧ exec (.csum bs) s = .next { s with
          results := s.results ++
            [{ status := .ok, cs := some (BitVec.ofNat 8 ((bs.map BitVec.toNat).sum % 256)) }] }

/-- R144 (a): changing one byte of a frame whose checksum is right makes it wrong, whether the byte is a
data byte or the checksum byte. -/
def Obligations.SingleByteErrorDetected : Prop :=
  ∀ (f : List Byte) (i : Nat) (b : Byte), i < f.length → b ≠ byteAt f i →
    byteAt f (f.length - 1) = checksum (f.take (f.length - 1)) →
      byteAt (f.set i b) (f.length - 1) ≠ checksum ((f.set i b).take (f.length - 1))

/-- R144 (b): a reordering of bytes is invisible to the checksum, and so are changes whose sum is a
multiple of 256. -/
def Obligations.ReorderingUndetected : Prop :=
  ∀ xs ys : List Byte,
    (xs.Perm ys → checksum xs = checksum ys)
      ∧ ((256 : Int) ∣ ((xs.map BitVec.toNat).sum : Int) - (ys.map BitVec.toNat).sum →
          checksum xs = checksum ys)

/-! ### The PayloadCodec -/

/-- R100: the legality predicate is the rule's four conjuncts, bit 4 being free, and it holds of exactly the
18 bytes. -/
def Obligations.LegalDescriptors : Prop :=
  ∀ d : Byte,
    (descValid d = true ↔
      (d &&& 0x0F) ∈ ([1, 2, 4, 8] : List Byte) ∧ d.getLsbD 5 = false
        ∧ (d.getLsbD 6 = true → d &&& 0x0F = 4) ∧ ¬ (d.getLsbD 6 = true ∧ d.getLsbD 7 = true))
      ∧ (descValid d = true ↔ d ∈ [(0x01 : Byte), 0x81, 0x02, 0x82, 0x04, 0x84, 0x08, 0x88, 0x44,
          0x11, 0x91, 0x12, 0x92, 0x14, 0x94, 0x18, 0x98, 0x54])
      ∧ (descValid d = true ↔ d ∈ legalDescriptors)

/-- R73: each row's byte, with its width, signedness, float-ness and timestamp bit, decodes to the row, and
the row runs to those fields (a meaning of the model's own, log entry 5). -/
def Obligations.DescriptorTable : Prop :=
  ∀ (row : Byte × Instr × Desc),
    row ∈ [((0x01 : Byte), Instr.u8, (⟨1, false, false, false⟩ : Desc)),
      (0x81, .s8, ⟨1, true, false, false⟩), (0x02, .u16, ⟨2, false, false, false⟩),
      (0x82, .s16, ⟨2, true, false, false⟩), (0x04, .u32, ⟨4, false, false, false⟩),
      (0x84, .s32, ⟨4, true, false, false⟩), (0x08, .u64, ⟨8, false, false, false⟩),
      (0x88, .s64, ⟨8, true, false, false⟩), (0x44, .float, ⟨4, false, true, false⟩),
      (0x11, .tu8, ⟨1, false, false, true⟩), (0x91, .ts8, ⟨1, true, false, true⟩),
      (0x12, .tu16, ⟨2, false, false, true⟩), (0x92, .ts16, ⟨2, true, false, true⟩),
      (0x14, .tu32, ⟨4, false, false, true⟩), (0x94, .ts32, ⟨4, true, false, true⟩),
      (0x18, .tu64, ⟨8, false, false, true⟩), (0x98, .ts64, ⟨8, true, false, true⟩),
      (0x54, .tfloat, ⟨4, false, true, true⟩)] →
    decode (.descriptor row.1) = .ok row.2.1
      ∧ ∀ s : State, exec row.2.1 s = .next { s with
          results := s.results ++ [{ status := .ok, desc := some row.2.2 }] }

/-- R74: the illegal descriptors are the bytes of the four classes, and every operation that validates one
raises `InvalidPayloadType`: PTYP, PENC, PDEC, ENCR and ENCW on any other operands, and DECR on a frame of
either layout whose earlier checks pass. -/
def Obligations.IllegalDescriptorRaises : Prop :=
  ∀ d : Byte,
    (d ∉ legalDescriptors ↔
      ¬ (descWidth d = 1 ∨ descWidth d = 2 ∨ descWidth d = 4 ∨ descWidth d = 8) ∨ d.getLsbD 5 = true
        ∨ (d.getLsbD 6 = true ∧ descWidth d ≠ 4) ∨ d = 0xC4 ∨ d = 0xD4)
    ∧ (d ∉ legalDescriptors → ∀ (s : State) (i : Instr),
        (i = .ptyp d ∨ (∃ vs, i = .penc d vs) ∨ (∃ bs, i = .pdec d bs)
          ∨ (∃ a p, i = .encr a p d) ∨ (∃ a p vs, i = .encw a p d vs)
          ∨ (∃ t a p ts pl, t ∈ assignedTypes.map Prod.fst ∧ UsesLayoutT s.tsPolicy d
              ∧ pl.length ≤ 245 ∧ i = .decr (layoutT t a p d ts pl))
          ∨ (∃ t a p pl, t ∈ assignedTypes.map Prod.fst ∧ ¬ UsesLayoutT s.tsPolicy d
              ∧ pl.length ≤ 251 ∧ i = .decr (layoutN t a p d pl))) →
          exec i s = .next { s with results := s.results ++ [{ status := .invalidPayloadType }] })

/-- R102: PTYP returns the fields of a legal descriptor and raises `InvalidPayloadType` for every other
byte. -/
def Obligations.PtypResult : Prop :=
  ∀ (d : Byte) (s : State),
    decode (.command [0x01, d]) = .ok (.ptyp d)
      ∧ (d ∈ legalDescriptors → exec (.ptyp d) s = .next { s with
          results := s.results ++ [{ status := .ok, desc := some <|
            { width := (d &&& 0x0F).toNat, signed := d.getLsbD 7, isFloat := d.getLsbD 6,
              hasTimestamp := d.getLsbD 4 } }] })
      ∧ (d ∉ legalDescriptors → exec (.ptyp d) s = .next { s with
          results := s.results ++ [{ status := .invalidPayloadType }] })

/-- R105, R106: PENC. A legal descriptor and values that fit it, within 251 bytes, give the elements in
value order; each error has its status, `InvalidPayloadType` first (R310). -/
def Obligations.PencResult : Prop :=
  ∀ (d : Byte) (vs : List PVal) (s : State),
    (valuesWf vs = true →
      decode (.command (0x02 :: d :: BitVec.ofNat 8 vs.length :: vs.flatMap encodeLane))
        = .ok (.penc d vs))
      ∧ (d ∉ legalDescriptors → exec (.penc d vs) s = .next { s with
          results := s.results ++ [{ status := .invalidPayloadType }] })
      ∧ (d ∈ legalDescriptors → (¬ (∀ v ∈ vs, v.fits d = true) ∨ 251 < vs.length * descWidth d) →
          exec (.penc d vs) s = .next { s with
            results := s.results ++ [{ status := .encodingError }] })
      ∧ (d ∈ legalDescriptors → (∀ v ∈ vs, v.fits d = true) → vs.length * descWidth d ≤ 251 →
          exec (.penc d vs) s = .next { s with
            results := s.results ++ [{ status := .ok, bytes := payloadOf d vs }] })

/-- R104, R107: PDEC. A legal descriptor and a whole number of elements give the value of each; each
error has its status, `InvalidPayloadType` first (R310). -/
def Obligations.PdecResult : Prop :=
  ∀ (d : Byte) (bs : List Byte) (s : State),
    (bs.length ≤ 251 →
      decode (.command (0x03 :: d :: BitVec.ofNat 8 bs.length :: 0x00 :: bs)) = .ok (.pdec d bs))
      ∧ (d ∉ legalDescriptors → exec (.pdec d bs) s = .next { s with
          results := s.results ++ [{ status := .invalidPayloadType }] })
      ∧ (d ∈ legalDescriptors → bs.length % descWidth d ≠ 0 → exec (.pdec d bs) s = .next { s with
          results := s.results ++ [{ status := .decodingError }] })
      ∧ (d ∈ legalDescriptors → bs.length % descWidth d = 0 → exec (.pdec d bs) s = .next { s with
          results := s.results ++ [{ status := .ok, values := elementValues d bs }] })

/-- R109: the round trips. (a) Values a legal descriptor can encode come back from their own payload.
(b) A payload of whole elements comes back from its own values. -/
def Obligations.PayloadRoundTrips : Prop :=
  ∀ (d : Byte) (s : State), d ∈ legalDescriptors →
    (∀ vs : List PVal, (∀ v ∈ vs, v.fits d = true) → vs.length * descWidth d ≤ 251 →
      ∃ bs : List Byte,
        exec (.penc d vs) s = .next { s with results := s.results ++ [{ status := .ok, bytes := bs }] }
          ∧ exec (.pdec d bs) s = .next { s with
              results := s.results ++ [{ status := .ok, values := vs }] })
    ∧ (∀ bs : List Byte, bs.length ≤ 251 → bs.length % descWidth d = 0 →
      ∃ vs : List PVal, (∀ v ∈ vs, v.fits d = true)
        ∧ exec (.pdec d bs) s = .next { s with results := s.results ++ [{ status := .ok, values := vs }] }
        ∧ exec (.penc d vs) s = .next { s with results := s.results ++ [{ status := .ok, bytes := bs }] })

/-! ### The FrameCodec -/

/-- R142: ENCR. The request has no timestamp field, whatever bit 4 of the descriptor is. -/
def Obligations.EncrResult : Prop :=
  ∀ (a p d : Byte) (s : State),
    decode (.command [0x05, a, p, d]) = .ok (.encr a p d)
      ∧ (d ∉ legalDescriptors → exec (.encr a p d) s = .next { s with
          results := s.results ++ [{ status := .invalidPayloadType }] })
      ∧ (d ∈ legalDescriptors → exec (.encr a p d) s = .next { s with
          results := s.results ++
            [{ status := .ok, bytes := [0x01, 0x04, a, p, d, 0x01 + 0x04 + a + p + d] }] })

/-- R143: ENCW. -/
def Obligations.EncwResult : Prop :=
  ∀ (a p d : Byte) (vs : List PVal) (s : State),
    (valuesWf vs = true →
      decode (.command (0x06 :: a :: p :: d :: BitVec.ofNat 8 vs.length :: vs.flatMap encodeLane))
        = .ok (.encw a p d vs))
      ∧ (d ∉ legalDescriptors → exec (.encw a p d vs) s = .next { s with
          results := s.results ++ [{ status := .invalidPayloadType }] })
      ∧ (d ∈ legalDescriptors → (¬ (∀ v ∈ vs, v.fits d = true) ∨ 251 < vs.length * descWidth d) →
          exec (.encw a p d vs) s = .next { s with
            results := s.results ++ [{ status := .encodingError }] })
      ∧ (d ∈ legalDescriptors → (∀ v ∈ vs, v.fits d = true) → vs.length * descWidth d ≤ 251 →
          exec (.encw a p d vs) s = .next { s with
            results := s.results ++ [{ status := .ok, bytes :=
              [0x02, BitVec.ofNat 8 (4 + vs.length * descWidth d), a, p, d] ++ payloadOf d vs
                ++ [checksum ([0x02, BitVec.ofNat 8 (4 + vs.length * descWidth d), a, p, d]
                    ++ payloadOf d vs)] }] })

/-- R145: every frame ENCR or ENCW returns is well formed, and the reader, at a frame boundary, emits it
as one `FRAME` equal to itself. -/
def Obligations.EncodedFramesWellFormed : Prop :=
  ∀ (i : Instr) (s : State) (r : Result),
    ((∃ a p d, i = .encr a p d) ∨ ∃ a p d vs, i = .encw a p d vs) →
    exec i s = .next { s with results := s.results ++ [r] } → r.status = .ok →
      (byteAt r.bytes 1).toNat = r.bytes.length - 2 ∧ 6 ≤ r.bytes.length
        ∧ byteAt r.bytes (r.bytes.length - 1) = checksum (r.bytes.take (r.bytes.length - 1))
        ∧ (byteAt r.bytes 0 = 1 ∨ byteAt r.bytes 0 = 2)
        ∧ byteAt r.bytes 4 ∈ legalDescriptors
        ∧ ∀ u : State, u.rx = Receive.clear → u.pending = byteStimuli r.bytes →
            runSteps r.bytes.length u
              = .next { u with pending := [], outputs := u.outputs ++ [.frame r.bytes] }

/-- R62, R170, R173 to R176: DECR of a reply in layout T, where that layout is used: every field of the
reply record. Any ticks value is accepted (R174). -/
def Obligations.DecrLayoutT : Prop :=
  ∀ (t : Byte) (kind : MsgKind) (a p d : Byte) (ts : Timestamp) (vs : List PVal) (s : State),
    (t, kind) ∈ assignedTypes → d ∈ legalDescriptors → UsesLayoutT s.tsPolicy d →
    (∀ v ∈ vs, v.fits d = true) → vs.length * descWidth d ≤ 245 →
      exec (.decr (layoutT t a p d ts (payloadOf d vs))) s = .next { s with
        results := s.results ++ [{ status := .ok, reply := some <|
          { kind := kind, msgType := t, length := BitVec.ofNat 8 (10 + vs.length * descWidth d),
            address := a, port := p, payloadType := d, timestamp := some ts,
            payload := payloadOf d vs, values := vs,
            checksum := checksum ((layoutT t a p d ts (payloadOf d vs)).dropLast) } }] }

/-- R62, R170, R176: DECR of a reply in layout N, used under GATED where bit 4 of the descriptor is
clear: the timestamp is absent. -/
def Obligations.DecrLayoutN : Prop :=
  ∀ (t : Byte) (kind : MsgKind) (a p d : Byte) (vs : List PVal) (s : State),
    (t, kind) ∈ assignedTypes → d ∈ legalDescriptors → s.tsPolicy = .gated → d.getLsbD 4 = false →
    (∀ v ∈ vs, v.fits d = true) → vs.length * descWidth d ≤ 251 →
      exec (.decr (layoutN t a p d (payloadOf d vs))) s = .next { s with
        results := s.results ++ [{ status := .ok, reply := some <|
          { kind := kind, msgType := t, length := BitVec.ofNat 8 (4 + vs.length * descWidth d),
            address := a, port := p, payloadType := d, timestamp := none,
            payload := payloadOf d vs, values := vs,
            checksum := checksum ((layoutN t a p d (payloadOf d vs)).dropLast) } }] }

/-- R170 (with R171, R172, R176 and the order of R310): DECR of any frame, under either `TS_POLICY`. `h` is
the number of header bytes, 11, or 5 under GATED with bit 4 of byte 4 clear. The first check that fails gives
the status; where all pass, the reply record. -/
def Obligations.DecrResult : Prop :=
  ∀ (raw : List Byte) (s : State) (h n : Nat), n = raw.length →
    h = (if s.tsPolicy = .gated ∧ (byteAt raw 4).getLsbD 4 = false then 5 else 11) →
    (n ≤ 257 →
      decode (.command (0x07 :: BitVec.ofNat 8 n :: BitVec.ofNat 8 (n / 256) :: raw)) = .ok (.decr raw))
    ∧ exec (.decr raw) s = .next { s with results := s.results ++ [
        if n < 6 ∨ n < h + 1 ∨ n < 2 + (byteAt raw 1).toNat then { status := .truncatedFrame }
        else if n > 2 + (byteAt raw 1).toNat then { status := .frameLengthMismatch }
        else if byteAt raw (n - 1) ≠ checksum (raw.take (n - 1)) then { status := .checksumMismatch }
        else
          match assignedTypes.lookup (byteAt raw 0) with
          | none => { status := .invalidMessageType }
          | some kind =>
            if byteAt raw 4 ∉ legalDescriptors then { status := .invalidPayloadType }
            else if (n - h - 1) % descWidth (byteAt raw 4) ≠ 0 then { status := .decodingError }
            else { status := .ok, reply := some {
              kind := kind, msgType := byteAt raw 0, length := byteAt raw 1, address := byteAt raw 2,
              port := byteAt raw 3, payloadType := byteAt raw 4,
              timestamp := if h = 11 then
                  some ⟨BitVec.ofNat 32 (le (slice raw 5 4)), BitVec.ofNat 16 (le (slice raw 9 2))⟩
                else none,
              payload := slice raw h (n - h - 1),
              values := elementValues (byteAt raw 4) (slice raw h (n - h - 1)),
              checksum := byteAt raw (n - 1) } }] }

/-- R173: the exact time the raw timestamp fields denote. -/
def Obligations.TimestampValue : Prop :=
  ∀ ts : Timestamp, ts.value = ts.seconds.toNat + (ts.ticks.toNat : ℚ) / 31250

/-! ### The rows of the wire encodings (log entry 5) -/

/-- R142, R143: the request-frame rows. READ_REQ and WRITE_REQ give what ENCR and ENCW give, and every
byte string that decodes to one of them is the frame the encoder builds for it, byte for byte. -/
def Obligations.RequestRowsAreBuiltFrames : Prop :=
  ∀ s : State,
    (∀ a p d, exec (.readReq a p d) s = exec (.encr a p d) s)
      ∧ (∀ a p d vs, exec (.writeReq a p d vs) s = exec (.encw a p d vs) s)
      ∧ ∀ f i, decode (.requestFrame f) = .ok i →
          exec i s = .next { s with results := s.results ++ [{ status := .ok, bytes := f }] }

/-- R70, R175: the reply-frame rows. Each gives one result record and nothing else; a decoded frame has
the row's kind and type byte; an unassigned type is never decoded. -/
def Obligations.ReplyRowKinds : Prop :=
  ∀ (s : State) (rest : List Byte),
    (∀ (i : Instr) (t : Byte) (k : MsgKind),
      (i, t, k) ∈ [(Instr.read rest, (0x01 : Byte), MsgKind.read), (.write rest, 0x02, .write),
        (.event rest, 0x03, .event), (.readError rest, 0x09, .readError),
        (.writeError rest, 0x0A, .writeError)] →
        exec i s = exec (.decr (t :: rest)) s
          ∧ ∃ r : Result, exec i s = .next { s with results := s.results ++ [r] }
            ∧ (r.status = .ok → ∃ m : Reply, r.reply = some m ∧ m.kind = k ∧ m.msgType = t))
      ∧ ∀ raw : List Byte, (raw = [] ∨ byteAt raw 0 ∉ assignedTypes.map Prod.fst) →
          exec (.replyUnassigned raw) s = exec (.decr raw) s
            ∧ ∃ st : Status, st ≠ .ok
              ∧ exec (.replyUnassigned raw) s = .next { s with
                  results := s.results ++ [{ status := st }] }

/-- R101, R102: each descriptor byte decodes to a row of its space, and the row gives what PTYP of the byte
gives; an illegal byte is the PT_ILLEGAL row, which gives `InvalidPayloadType` (the rows' meanings are the
model's own, log entry 5). -/
def Obligations.DescriptorRowsArePtyp : Prop :=
  ∀ (d : Byte) (s : State),
    (∃ i : Instr, decode (.descriptor d) = .ok i ∧ i.format = .payloadType ∧ exec i s = exec (.ptyp d) s)
      ∧ (d ∉ legalDescriptors → decode (.descriptor d) = .ok (.ptIllegal d))
      ∧ exec (.ptIllegal d) s = .next { s with
          results := s.results ++ [{ status := .invalidPayloadType }] }

/-- R70: each frame of up to 257 bytes decodes to the row of its type byte, one of the five or
REPLY_UNASSIGNED for any other, and that row gives what DECR of the frame gives (that a row runs is the
model's choice, log entry 5). The empty byte string has no type byte; that it is the REPLY_UNASSIGNED row is
the model's choice (log entry 10). -/
def Obligations.ReplyFramesDecodeToTheirRow : Prop :=
  ∀ (raw : List Byte) (s : State), raw.length ≤ 257 → ∃ i : Instr,
    decode (.replyFrame raw) = .ok i ∧ i.format = .replyFrame ∧ exec i s = exec (.decr raw) s
      ∧ (∀ rest, raw = 0x01 :: rest → i = .read rest)
      ∧ (∀ rest, raw = 0x02 :: rest → i = .write rest)
      ∧ (∀ rest, raw = 0x03 :: rest → i = .event rest)
      ∧ (∀ rest, raw = 0x09 :: rest → i = .readError rest)
      ∧ (∀ rest, raw = 0x0A :: rest → i = .writeError rest)
      ∧ (∀ t rest, raw = t :: rest → t ∉ ([0x01, 0x02, 0x03, 0x09, 0x0A] : List Byte) →
          i = .replyUnassigned raw)
      ∧ (raw = [] → i = .replyUnassigned raw)

/-! ### Encodings -/

/-- R82: of the commands that have an op byte, the decoder answers ILLEGAL exactly for the rule's five cases,
and an illegal command returns `IllegalOperation` with no other effect. -/
def Obligations.IllegalCommandResult : Prop :=
  ∀ (c : List Byte) (s : State),
    (c ≠ [] → (decode (.command c) = .ok (.illegal c) ↔
      (byteAt c 0).toNat / 16 ≠ 0
        ∨ ((byteAt c 0).toNat % 16 = 0 ∨ 0xA ≤ (byteAt c 0).toNat % 16)
        ∨ c.length ≠ commandLength c
        ∨ byteLimit c < byteCount c
        ∨ ∃ j, j < laneCount c ∧ laneMalformed (slice c (laneStart c + 9 * j) 9) = true))
      ∧ exec (.illegal c) s = .next { s with results := s.results ++ [{ status := .illegalOperation }] }

/-- R83: each integer of `LANE_RANGE` has exactly one lane, and so has each float pattern; no lane
carries an integer outside the range. -/
def Obligations.LaneEncodingUnique : Prop :=
  ∀ v : PVal,
    (v.wf = true → ∀ l : List Byte, decodeLanes 1 l = some [v] ↔ l = encodeLane v)
      ∧ (v.wf = false → ∀ l : List Byte, decodeLanes 1 l ≠ some [v])

/-- Every well-formed instruction, with every operand, decodes back from its own words. RX_RESERVED is not
well formed: the decoder refuses its word by name (R87; `ReservedEventRefused`). -/
def Obligations.DecodeOfEncode : Prop :=
  ∀ i : Instr, i.wf = true → decode (encode i) = .ok i

/-- Each command byte string, legal or not, is the encoding of the instruction it decodes to: no two
commands of different bytes have one reading, and no bit of a command is dropped. -/
def Obligations.EncodeOfDecodedCommand : Prop :=
  ∀ c : List Byte, encode (decodeCommand c) = .command c

/-- What the decoder answers is well formed, in every encoding space. -/
def Obligations.DecodedIsWellFormed : Prop :=
  ∀ (e : Encoded) (i : Instr), decode e = .ok i → i.wf = true

/-- Words written out from the spec's encodings (R61, R62, R73, R81, R83, R86) decode to the
instructions they stand for; a command of no bytes is the ILLEGAL row (the model's reading, log entry 10). -/
def Obligations.SampleWordsDecode : Prop :=
  decode (.command [0x02, 0x82, 0x01, 0x01, 0xFE, 0xFF, 0xFF, 0xFF, 0xFF, 0xFF, 0xFF, 0xFF])
      = .ok (.penc 0x82 [.int (-2)])
    ∧ decode (.command [0x06, 0x2A, 0xFF, 0x01, 0x01, 0x00, 0x17, 0x00, 0x00, 0x00, 0x00, 0x00, 0x00, 0x00])
      = .ok (.encw 0x2A 0xFF 0x01 [.int 23])
    ∧ decode (.command [0x03, 0x02, 0x02, 0x00, 0x34, 0x12]) = .ok (.pdec 0x02 [0x34, 0x12])
    ∧ decode (.receive 0 0x97) = .ok (.rxByte 0x97)
    ∧ decode (.requestFrame [0x02, 0x05, 0x2A, 0xFF, 0x01, 0x17, 0x48])
      = .ok (.writeReq 0x2A 0xFF 0x01 [.int 23])
    ∧ decode (.replyFrame [0x09, 0x0A, 0x2A, 0xFF, 0x02, 0x01, 0x00, 0x00, 0x00, 0x00, 0x00, 0x3F])
      = .ok (.readError [0x0A, 0x2A, 0xFF, 0x02, 0x01, 0x00, 0x00, 0x00, 0x00, 0x00, 0x3F])
    ∧ decode (.descriptor 0x94) = .ok .ts32
    ∧ decode (.command []) = .ok (.illegal [])

/-- R91: the pseudo-operations supply port 255 and one RX_BYTE a byte. -/
def Obligations.PseudoOperationsExpand : Prop :=
  ∀ (a d : Byte) (vs : List PVal) (f : List Byte),
    pseudoEncr a d = .encr a 0xFF d ∧ pseudoEncw a d vs = .encw a 0xFF d vs
      ∧ pseudoRxf f = pseudoRxs f
      ∧ (pseudoRxs f).map encode = f.map fun b => .receive 0 b

/-- When an item is next and decodes to an instruction, the step is that instruction's meaning on the
state without the item; an item that decodes to none is refused by name, and where nothing is pending
nothing changes (the model's choice, log entry 1). -/
def Obligations.StepRunsDecodedItem : Prop :=
  ∀ (s : State) (e : Encoded) (rest : List Stimulus),
    (s.pending = .item e :: rest →
      (∀ i, decode e = .ok i → step s = exec i { s with pending := rest })
        ∧ ∀ why, decode e = .error why → step s = .refused (.undecodable why))
      ∧ (s.pending = [] → step s = .next s)
end

