-- ==== Sys2Proof/Laws/Codec.lean ====
section
/-! SUPPORT. The laws of the byte-sequence primitives (R10), of descriptors, and of elements: what each
shared codec function can do, said once. -/

namespace Sys2Proof

/-! ### Little-endian bytes (R10) -/

@[simp] theorem length_leBytes (k v : Nat) : (leBytes k v).length = k := by
  induction k generalizing v with
  | zero => rfl
  | succ k ih => simp [leBytes, ih]

/-- `LE` of a sequence of `n` bytes is below `256^n`. -/
theorem le_lt (bs : List Byte) : le bs < 256 ^ bs.length := by
  induction bs with
  | nil => simp [le]
  | cons b bs ih =>
    have hb := b.isLt
    simp only [le, List.length_cons, pow_succ]
    omega

theorem le_leBytes_mod (k v : Nat) : le (leBytes k v) = v % 256 ^ k := by
  induction k generalizing v with
  | zero => simp [le, leBytes, Nat.mod_one]
  | succ k ih =>
    simp only [leBytes, le, BitVec.toNat_ofNat, ih]
    rw [show (256 : Nat) ^ (k + 1) = 256 * 256 ^ k by ring, Nat.mod_mul]

/-- `LE` of `le_bytes_k(v)` is `v`, for `v` that `k` bytes can hold. -/
theorem le_leBytes {k v : Nat} (h : v < 256 ^ k) : le (leBytes k v) = v := by
  rw [le_leBytes_mod, Nat.mod_eq_of_lt h]

/-- `le_bytes` of the value of a byte sequence is the sequence. -/
theorem leBytes_le (bs : List Byte) : leBytes bs.length (le bs) = bs := by
  induction bs with
  | nil => rfl
  | cons b bs ih =>
    have hb := b.isLt
    have hdiv : (b.toNat + 256 * le bs) / 256 = le bs := by omega
    have hmod : BitVec.ofNat 8 (b.toNat + 256 * le bs) = b := by
      apply BitVec.eq_of_toNat_eq
      simp only [BitVec.toNat_ofNat]
      omega
    simp only [List.length_cons, le, leBytes, hdiv, hmod, ih]

theorem leBytes_le' {k : Nat} {bs : List Byte} (h : bs.length = k) : leBytes k (le bs) = bs := by
  subst h; exact leBytes_le bs

/-! ### Byte access -/

@[simp] theorem byteAt_cons_zero (b : Byte) (bs : List Byte) : byteAt (b :: bs) 0 = b := rfl

@[simp] theorem byteAt_cons_succ (b : Byte) (bs : List Byte) (i : Nat) :
    byteAt (b :: bs) (i + 1) = byteAt bs i := by
  simp [byteAt]

@[simp] theorem byteAt_nil (i : Nat) : byteAt [] i = 0 := by simp [byteAt]

@[simp] theorem byteAt_append_last (f : List Byte) (c : Byte) : byteAt (f ++ [c]) f.length = c := by
  simp [byteAt]

/-- The last byte of a checksummed sequence is the checksum of the rest (R64). -/
@[simp] theorem length_withChecksum (f : List Byte) : (withChecksum f).length = f.length + 1 := by
  simp [withChecksum]

/-! ### Descriptors -/

/-- R73, R100: the predicate holds of the 18 listed bytes and of no other. -/
theorem descValid_cases (d : Byte) (h : descValid d = true) :
    descWidth d = 1 ∨ descWidth d = 2 ∨ descWidth d = 4 ∨ descWidth d = 8 := by
  simp [descValid, Config.widths] at h
  tauto

theorem descWidth_pos {d : Byte} (h : descValid d = true) : 0 < descWidth d := by
  rcases descValid_cases d h with h | h | h | h <;> omega

theorem descWidth_float {d : Byte} (h : descValid d = true) (hf : descFloat d = true) :
    descWidth d = 4 := by
  simp [descValid, Config.floatWidth, hf] at h
  exact h.1.2

/-! ### Elements -/

/-- What `enc_elem` can do (R103): the element's bytes where the value fits, `EncodingError` otherwise. -/
theorem encElem_cases (d : Byte) (v : PVal) :
    (v.fits d = true ∧ ∃ s, encElem d v = .ok s)
      ∨ (v.fits d = false ∧ encElem d v = .error .encodingError) := by
  cases v with
  | int n => by_cases hf : descFloat d <;> by_cases hr : inRange d n <;> simp [encElem, PVal.fits, hf, hr]
  | f32 b => by_cases hf : descFloat d <;> simp [encElem, PVal.fits, hf]

/-- A fitting value is encoded in `width(d)` bytes (R103). -/
theorem encElem_length {d : Byte} (h : descValid d = true) {v : PVal} {s : List Byte}
    (he : encElem d v = .ok s) : s.length = descWidth d := by
  cases v with
  | int n =>
    by_cases hf : descFloat d <;> by_cases hr : inRange d n <;> simp [encElem, hf, hr] at he
    subst he; simp
  | f32 b =>
    by_cases hf : descFloat d <;> simp [encElem, hf] at he
    subst he; simp [descWidth_float h hf]

/-- What `encValues` can do (R105): all values fit and the bytes are as many as the widths, or some value
does not fit and the status is `EncodingError`. -/
theorem encValues_cases (d : Byte) (vs : List PVal) :
    ((∀ v ∈ vs, v.fits d = true) ∧ ∃ out, encValues d vs = .ok out)
      ∨ (¬ (∀ v ∈ vs, v.fits d = true) ∧ encValues d vs = .error .encodingError) := by
  induction vs with
  | nil => simp [encValues]
  | cons v vs ih =>
    rcases encElem_cases d v with ⟨hv, s, hs⟩ | ⟨hv, hs⟩
    · rcases ih with ⟨hvs, out, ho⟩ | ⟨hvs, ho⟩
      · exact .inl ⟨by simpa [hv] using hvs, s ++ out, by simp [encValues, hs, ho]⟩
      · refine .inr ⟨?_, by simp [encValues, hs, ho]⟩
        simpa [hv] using hvs
    · exact .inr ⟨by simp [hv], by simp [encValues, hs]⟩

theorem encValues_length {d : Byte} (h : descValid d = true) {vs : List PVal} {out : List Byte}
    (he : encValues d vs = .ok out) : out.length = vs.length * descWidth d := by
  induction vs generalizing out with
  | nil => simp [encValues] at he; simp [← he]
  | cons v vs ih =>
    simp only [encValues] at he
    cases hs : encElem d v with
    | error e => simp [hs] at he
    | ok s =>
      cases ho : encValues d vs with
      | error e => simp [hs, ho] at he
      | ok o =>
        simp only [hs, ho, Except.ok.injEq] at he
        subst he
        simp [encElem_length h hs, ih ho, Nat.succ_mul, Nat.add_comm]

/-- What `encPayload` can do (R105, R143): the descriptor's error first, then the one error of the values,
and otherwise the elements, as many bytes as the widths, within the limit. -/
theorem encPayload_cases (limit : Nat) (d : Byte) (vs : List PVal) :
    (descValid d = false ∧ encPayload limit d vs = .error .invalidPayloadType)
      ∨ (descValid d = true ∧ (¬ (∀ v ∈ vs, v.fits d = true) ∨ limit < vs.length * descWidth d)
          ∧ encPayload limit d vs = .error .encodingError)
      ∨ (descValid d = true ∧ (∀ v ∈ vs, v.fits d = true) ∧ vs.length * descWidth d ≤ limit
          ∧ ∃ out, encValues d vs = .ok out ∧ encPayload limit d vs = .ok out) := by
  cases hd : descValid d with
  | false => exact .inl ⟨rfl, by simp [encPayload, hd]⟩
  | true =>
    refine .inr ?_
    rcases encValues_cases d vs with ⟨hf, out, ho⟩ | ⟨hf, ho⟩
    · have hl := encValues_length hd ho
      by_cases hlt : limit < vs.length * descWidth d
      · exact .inl ⟨rfl, .inr hlt, by simp [encPayload, hd, ho, hl, hlt]⟩
      · exact .inr ⟨rfl, hf, by omega, out, ho, by simp [encPayload, hd, ho, hl, hlt]⟩
    · exact .inl ⟨rfl, .inl hf, by simp [encPayload, hd, ho]⟩

/-! ### Checksummed sequences (R64) -/

theorem withChecksum_last (f : List Byte) :
    byteAt (withChecksum f) ((withChecksum f).length - 1) = checksum f := by
  simp [withChecksum, byteAt]

theorem withChecksum_body (f : List Byte) :
    (withChecksum f).take ((withChecksum f).length - 1) = f := by
  simp [withChecksum]

@[simp] theorem dropLast_withChecksum (f : List Byte) : (withChecksum f).dropLast = f := by
  simp [withChecksum]

theorem byteAt_withChecksum (f : List Byte) {i : Nat} (h : i < f.length) :
    byteAt (withChecksum f) i = byteAt f i := by
  simp [withChecksum, byteAt, List.getElem?_append_left h]

/-! ### Counted bytes (R81) -/

/-- What `decodeCounted` can accept: the bytes themselves, within the limit, under their own count. -/
theorem decodeCounted_some {limit : Nat} {nL nH : Byte} {bs xs : List Byte}
    (h : decodeCounted limit nL nH bs = some xs) :
    xs = bs ∧ bs.length ≤ limit ∧ encodeCount bs.length = [nL, nH] := by
  unfold decodeCounted at h
  split_ifs at h with hh
  simp only [Option.some.injEq] at h
  exact ⟨h.symm, by omega, by rw [encodeCount, hh.2]; exact leBytes_le [nL, nH]⟩

end Sys2Proof
end

