-- ==== Sys2Proof/Laws/Memory.lean ====
section
/-! SUPPORT. The laws of the receive frame buffer: a read after a write, and the canonical form. -/

namespace Sys2Proof.Machine

@[simp] theorem Memory.read?_nil (i : Nat) : Memory.read? [] i = none := rfl

theorem Memory.read?_cons (a : Nat) (b : Byte) (m : Memory) (i : Nat) :
    Memory.read? ((a, b) :: m) i = if a = i then some b else m.read? i := rfl

/-- Reading an index after a write gives the written byte there, and the old entry elsewhere. -/
theorem Memory.read?_write (m : Memory) (i j : Nat) (v : Byte) :
    (m.write i v).read? j = if i = j then some v else m.read? j := by
  induction m with
  | nil => simp [Memory.write, Memory.read?_cons]
  | cons c m ih =>
    obtain ⟨a, b⟩ := c
    simp only [Memory.write]
    split
    · simp [Memory.read?_cons]
    · split
      · subst_vars
        simp only [Memory.read?_cons]
        split <;> simp_all
      · simp only [Memory.read?_cons, ih]
        split
        · subst_vars; simp_all
        · rfl

theorem Memory.rising_mono {lo hi : Nat} (h : lo ≤ hi) {m : Memory}
    (hm : Memory.rising hi m = true) : Memory.rising lo m = true := by
  cases m with
  | nil => rfl
  | cons c m =>
    simp only [Memory.rising, Bool.and_eq_true, decide_eq_true_eq] at hm ⊢
    exact ⟨le_trans h hm.1, hm.2⟩

/-- A write keeps the indices strictly rising. -/
theorem Memory.rising_write (m : Memory) (lo i : Nat) (v : Byte) (hi : lo ≤ i)
    (hm : Memory.rising lo m = true) : Memory.rising lo (m.write i v) = true := by
  induction m generalizing lo with
  | nil => simp [Memory.write, Memory.rising, hi]
  | cons c m ih =>
    obtain ⟨a, b⟩ := c
    simp only [Memory.rising, Bool.and_eq_true, decide_eq_true_eq] at hm
    simp only [Memory.write]
    split
    · simp only [Memory.rising, Bool.and_eq_true, decide_eq_true_eq]
      exact ⟨hi, by omega, hm.2⟩
    · split
      · subst_vars
        simp only [Memory.rising, Bool.and_eq_true, decide_eq_true_eq]
        exact ⟨hi, hm.2⟩
      · simp only [Memory.rising, Bool.and_eq_true, decide_eq_true_eq]
        exact ⟨hm.1, ih (a + 1) (by omega) hm.2⟩

theorem Memory.bounded_write (m : Memory) (i : Nat) (v : Byte) (hi : i < Config.frameMax)
    (hm : (m.all fun c => decide (c.1 < Config.frameMax)) = true) :
    ((m.write i v).all fun c => decide (c.1 < Config.frameMax)) = true := by
  induction m with
  | nil => simp [Memory.write, hi]
  | cons c m ih =>
    obtain ⟨a, b⟩ := c
    simp only [List.all_cons, Bool.and_eq_true] at hm
    simp only [Memory.write]
    split
    · simp [List.all_cons, hi, hm.1, hm.2]
    · split
      · simp [List.all_cons, hi, hm.2]
      · simp [List.all_cons, hm.1, ih hm.2]

/-- A store to `rx_buf` keeps the canonical form. -/
theorem rxStore_wf (m : Memory) (i : Nat) (v : Byte) (hm : m.wf = true) :
    (rxStore m i v).wf = true := by
  unfold rxStore
  split
  · rename_i hi
    simp only [Memory.wf, Bool.and_eq_true] at hm ⊢
    exact ⟨Memory.rising_write m 0 i v (Nat.zero_le i) hm.1, Memory.bounded_write m i v hi hm.2⟩
  · exact hm

/-- Every transition of the reader keeps the canonical form of `rx_buf`. -/
theorem takeByte_wf (b : Byte) (r : Receive) (hm : r.rxBuf.wf = true) :
    (takeByte b r).1.rxBuf.wf = true := by
  unfold takeByte
  cases r.rxState with
  | idle => exact rxStore_wf r.rxBuf 0 b hm
  | haveType =>
    simp only [takeLength]
    split
    · rfl
    · exact rxStore_wf r.rxBuf 1 b hm
  | body =>
    simp only [takeBody]
    split
    · rfl
    · exact rxStore_wf r.rxBuf (2 + r.rxCnt.toNat) b hm
  | failed => exact hm

theorem takeTimeout_wf (r : Receive) (hm : r.rxBuf.wf = true) :
    (takeTimeout r).1.rxBuf.wf = true := by
  unfold takeTimeout
  cases r.rxState <;> exact hm

theorem takeClosed_wf (r : Receive) (hm : r.rxBuf.wf = true) :
    (takeClosed r).1.rxBuf.wf = true := by
  unfold takeClosed
  cases r.rxState <;> exact hm

theorem reset_wf : State.reset.rx.rxBuf.wf = true := rfl

theorem clear_wf : Receive.clear.rxBuf.wf = true := rfl

/-- A store right after the last listed entry lists it after the others. -/
theorem Memory.write_append (m : Memory) (i : Nat) (v : Byte) (h : ∀ c ∈ m, c.1 < i) :
    m.write i v = m ++ [(i, v)] := by
  induction m with
  | nil => rfl
  | cons c m ih =>
    obtain ⟨a, b⟩ := c
    have ha : a < i := h (a, b) (by simp)
    simp only [Memory.write, List.cons_append]
    rw [if_neg (by omega), if_neg (by omega), ih (fun c hc => h c (by simp [hc]))]

/-- Where exactly the indices below `n` are listed, the next store lists index `n` after them. -/
theorem rxStore_next (m : Memory) (n : Nat) (v : Byte) (h : m.map Prod.fst = List.range n)
    (hn : n < Config.frameMax) : rxStore m n v = m ++ [(n, v)] := by
  rw [rxStore, if_pos hn]
  refine Memory.write_append m n v fun c hc => ?_
  have : c.1 ∈ m.map Prod.fst := List.mem_map_of_mem hc
  simpa [h] using this

theorem Memory.read?_of_mem (m : Memory) (lo : Nat) (hm : Memory.rising lo m = true) (a : Nat)
    (b : Byte) (h : (a, b) ∈ m) : m.read? a = some b := by
  induction m generalizing lo with
  | nil => simp at h
  | cons c m ih =>
    obtain ⟨x, y⟩ := c
    simp only [Memory.rising, Bool.and_eq_true, decide_eq_true_eq] at hm
    simp only [List.mem_cons, Prod.mk.injEq] at h
    simp only [Memory.read?_cons]
    rcases h with ⟨rfl, rfl⟩ | h
    · simp
    · have hx : x < a := by
        clear ih
        have key : ∀ (m : Memory) (lo : Nat), Memory.rising lo m = true → (a, b) ∈ m → lo ≤ a := by
          intro m
          induction m with
          | nil => simp
          | cons c m ih =>
            obtain ⟨p, q⟩ := c
            intro lo hr hmem
            simp only [Memory.rising, Bool.and_eq_true, decide_eq_true_eq] at hr
            simp only [List.mem_cons, Prod.mk.injEq] at hmem
            rcases hmem with ⟨rfl, rfl⟩ | hmem
            · exact hr.1
            · exact le_trans hr.1 (le_trans (Nat.le_succ _) (ih (p + 1) hr.2 hmem))
        exact key m (x + 1) hm.2 h
      rw [if_neg (by omega)]
      exact ih (x + 1) hm.2 h

/-- Indices that are exactly `lo, lo+1, …` are in canonical form. -/
theorem Memory.rising_of_range' (m : Memory) (lo n : Nat) (h : m.map Prod.fst = List.range' lo n) :
    Memory.rising lo m = true := by
  induction m generalizing lo n with
  | nil => rfl
  | cons c m ih =>
    obtain ⟨a, b⟩ := c
    cases n with
    | zero => simp at h
    | succ n =>
      simp only [List.map_cons, List.range'_succ, List.cons.injEq] at h
      obtain ⟨rfl, h⟩ := h
      simp only [Memory.rising, Bool.and_eq_true, decide_eq_true_eq]
      exact ⟨le_refl _, ih (a + 1) n h⟩

/-- Reading out all of a buffer whose indices are exactly those below `n` gives its bytes in order. -/
theorem rxFrame_all (m : Memory) (n : Nat) (h : m.map Prod.fst = List.range n) :
    rxFrame m n = m.map Prod.snd := by
  have hr : Memory.rising 0 m = true := Memory.rising_of_range' m 0 n (by rw [h, List.range_eq_range'])
  have hload : ∀ c ∈ m, rxLoad m c.1 = c.2 := fun c hc => by
    simp [rxLoad, Memory.read?_of_mem m 0 hr c.1 c.2 hc]
  rw [rxFrame, ← h, List.map_map]
  exact List.map_congr_left fun c hc => hload c hc

end Sys2Proof.Machine
end

