-- ==== Sys2Proof/Laws/PerInstr.lean ====
section
/-! SUPPORT. Statements about every instruction as syntax, one lemma for each constructor. -/

namespace Sys2Proof.Laws.EncodingSpace

/-- The words of an instruction lie in the encoding space of its row (the table's column "format"). -/
def Statement (i : Instr) : Prop := (encode i).format = i.format

theorem ptyp (d : Byte) : Statement (.ptyp d) := rfl
theorem penc (d : Byte) (vs : List PVal) : Statement (.penc d vs) := rfl
theorem pdec (d : Byte) (bs : List Byte) : Statement (.pdec d bs) := rfl
theorem csum (bs : List Byte) : Statement (.csum bs) := rfl
theorem encr (a : Byte) (p : Byte) (d : Byte) : Statement (.encr a p d) := rfl
theorem encw (a : Byte) (p : Byte) (d : Byte) (vs : List PVal) : Statement (.encw a p d vs) := rfl
theorem decr (raw : List Byte) : Statement (.decr raw) := rfl
theorem rst : Statement .rst := rfl
theorem stat : Statement .stat := rfl
theorem illegal (c : List Byte) : Statement (.illegal c) := rfl
theorem rxByte (b : Byte) : Statement (.rxByte b) := rfl
theorem rxTimeout : Statement .rxTimeout := rfl
theorem rxClosed : Statement .rxClosed := rfl
theorem rxReserved : Statement .rxReserved := rfl
theorem readReq (a : Byte) (p : Byte) (d : Byte) : Statement (.readReq a p d) := rfl
theorem writeReq (a : Byte) (p : Byte) (d : Byte) (vs : List PVal) : Statement (.writeReq a p d vs) := rfl
theorem read (rest : List Byte) : Statement (.read rest) := rfl
theorem write (rest : List Byte) : Statement (.write rest) := rfl
theorem event (rest : List Byte) : Statement (.event rest) := rfl
theorem readError (rest : List Byte) : Statement (.readError rest) := rfl
theorem writeError (rest : List Byte) : Statement (.writeError rest) := rfl
theorem replyUnassigned (raw : List Byte) : Statement (.replyUnassigned raw) := rfl
theorem u8 : Statement .u8 := rfl
theorem tu8 : Statement .tu8 := rfl
theorem s8 : Statement .s8 := rfl
theorem ts8 : Statement .ts8 := rfl
theorem u16 : Statement .u16 := rfl
theorem tu16 : Statement .tu16 := rfl
theorem s16 : Statement .s16 := rfl
theorem ts16 : Statement .ts16 := rfl
theorem u32 : Statement .u32 := rfl
theorem tu32 : Statement .tu32 := rfl
theorem s32 : Statement .s32 := rfl
theorem ts32 : Statement .ts32 := rfl
theorem u64 : Statement .u64 := rfl
theorem tu64 : Statement .tu64 := rfl
theorem s64 : Statement .s64 := rfl
theorem ts64 : Statement .ts64 := rfl
theorem float : Statement .float := rfl
theorem tfloat : Statement .tfloat := rfl
theorem ptIllegal (d : Byte) : Statement (.ptIllegal d) := rfl

end Sys2Proof.Laws.EncodingSpace
end

