-- ==== Sys2Proof/Laws/State.lean ====
section
/-! SUPPORT. One lemma for each field and each named update of State, and the inversion lemmas of the
shared operations that build a next state. -/

namespace Sys2Proof.Machine

/-! ### respond -/

@[simp] theorem State.respond_rx (s : State) (r : Result) : (s.respond r).rx = s.rx := rfl
@[simp] theorem State.respond_tsPolicy (s : State) (r : Result) :
    (s.respond r).tsPolicy = s.tsPolicy := rfl
@[simp] theorem State.respond_pending (s : State) (r : Result) :
    (s.respond r).pending = s.pending := rfl
@[simp] theorem State.respond_results (s : State) (r : Result) :
    (s.respond r).results = s.results ++ [r] := rfl
@[simp] theorem State.respond_outputs (s : State) (r : Result) :
    (s.respond r).outputs = s.outputs := rfl

/-! ### receive -/

@[simp] theorem State.receive_rx (s : State) (x : Receive × Option RxOut) :
    (s.receive x).rx = x.1 := rfl
@[simp] theorem State.receive_tsPolicy (s : State) (x : Receive × Option RxOut) :
    (s.receive x).tsPolicy = s.tsPolicy := rfl
@[simp] theorem State.receive_pending (s : State) (x : Receive × Option RxOut) :
    (s.receive x).pending = s.pending := rfl
@[simp] theorem State.receive_results (s : State) (x : Receive × Option RxOut) :
    (s.receive x).results = s.results := rfl
@[simp] theorem State.receive_outputs (s : State) (x : Receive × Option RxOut) :
    (s.receive x).outputs = s.outputs ++ x.2.toList := rfl

/-! ### clearReceive -/

@[simp] theorem State.clearReceive_rx (s : State) : s.clearReceive.rx = Receive.clear := rfl
@[simp] theorem State.clearReceive_tsPolicy (s : State) : s.clearReceive.tsPolicy = s.tsPolicy := rfl
@[simp] theorem State.clearReceive_pending (s : State) : s.clearReceive.pending = s.pending := rfl
@[simp] theorem State.clearReceive_results (s : State) : s.clearReceive.results = s.results := rfl
@[simp] theorem State.clearReceive_outputs (s : State) : s.clearReceive.outputs = s.outputs := rfl

/-! ### place and fetch -/

@[simp] theorem State.place_rx (s : State) (x : Stimulus) : (s.place x).rx = s.rx := rfl
@[simp] theorem State.place_tsPolicy (s : State) (x : Stimulus) :
    (s.place x).tsPolicy = s.tsPolicy := rfl
@[simp] theorem State.place_pending (s : State) (x : Stimulus) :
    (s.place x).pending = x :: s.pending := rfl
@[simp] theorem State.place_results (s : State) (x : Stimulus) :
    (s.place x).results = s.results := rfl
@[simp] theorem State.place_outputs (s : State) (x : Stimulus) :
    (s.place x).outputs = s.outputs := rfl

/-- What is placed is what the next fetch takes, and nothing else of the state is touched. -/
@[simp] theorem State.fetch_place (s : State) (x : Stimulus) : (s.place x).fetch = some (x, s) := rfl

theorem State.fetch_nil {s : State} (h : s.pending = []) : s.fetch = none := by
  simp [State.fetch, h]

theorem State.fetch_cons {s : State} {x : Stimulus} {rest : List Stimulus}
    (h : s.pending = x :: rest) : s.fetch = some (x, { s with pending := rest }) := by
  simp [State.fetch, h]

/-! ### The receive state -/

@[simp] theorem Receive.clear_rxState : Receive.clear.rxState = .idle := rfl
@[simp] theorem Receive.clear_rxLen : Receive.clear.rxLen = 0 := rfl
@[simp] theorem Receive.clear_rxCnt : Receive.clear.rxCnt = 0 := rfl
@[simp] theorem Receive.clear_rxFault : Receive.clear.rxFault = .none := rfl
@[simp] theorem Receive.clear_rxBuf : Receive.clear.rxBuf = [] := rfl

@[simp] theorem enterFailed_rxState (f : RxFault) (r : Receive) :
    (enterFailed f r).1.rxState = .failed := rfl
@[simp] theorem enterFailed_rxFault (f : RxFault) (r : Receive) : (enterFailed f r).1.rxFault = f := rfl
@[simp] theorem enterFailed_rxLen (f : RxFault) (r : Receive) : (enterFailed f r).1.rxLen = r.rxLen := rfl
@[simp] theorem enterFailed_rxCnt (f : RxFault) (r : Receive) : (enterFailed f r).1.rxCnt = r.rxCnt := rfl
@[simp] theorem enterFailed_rxBuf (f : RxFault) (r : Receive) : (enterFailed f r).1.rxBuf = r.rxBuf := rfl
@[simp] theorem enterFailed_out (f : RxFault) (r : Receive) :
    (enterFailed f r).2 = some (.fault f.status) := rfl

/-! ### Receive words and receive events -/

/-- What the decoder of raw receive-port words can do (R86, R87): the three events, and the refusal of
event code 3. -/
theorem decodeReceive_cases (ev : BitVec 2) (b : Byte) :
    (ev = 0 ∧ decodeReceive ev b = .ok (.rxByte b))
      ∨ (ev = 1 ∧ decodeReceive ev b = .ok .rxTimeout)
      ∨ (ev = 2 ∧ decodeReceive ev b = .ok .rxClosed)
      ∨ (ev = 3 ∧ decodeReceive ev b = .error .reservedReceiveEvent) := by
  have h : ev = 0 ∨ ev = 1 ∨ ev = 2 ∨ ev = 3 := by revert ev; decide
  rcases h with rfl | rfl | rfl | rfl <;> simp [decodeReceive]

/-- The words of the receive port, in the form `simp` writes an event code (R86, R87). -/
@[simp] theorem decode_rxByte (b : Byte) : decode (.receive 0#2 b) = .ok (.rxByte b) := rfl
@[simp] theorem decode_rxTimeout (b : Byte) : decode (.receive 1#2 b) = .ok .rxTimeout := rfl
@[simp] theorem decode_rxClosed (b : Byte) : decode (.receive 2#2 b) = .ok .rxClosed := rfl
@[simp] theorem decode_rxReserved (b : Byte) :
    decode (.receive 3#2 b) = .error .reservedReceiveEvent := rfl

/-- A receive word the decoder accepts is the word of one of the three events (R87). -/
theorem decode_receive_ok {ev : BitVec 2} {b : Byte} {i : Instr} (h : decode (.receive ev b) = .ok i) :
    (ev = 0 ∧ i = .rxByte b) ∨ (ev = 1 ∧ i = .rxTimeout) ∨ (ev = 2 ∧ i = .rxClosed) := by
  rcases decodeReceive_cases ev b with ⟨he, hd⟩ | ⟨he, hd⟩ | ⟨he, hd⟩ | ⟨he, hd⟩ <;>
    simp only [decode, hd, Except.map, RxEvent.instr, Except.ok.injEq, reduceCtorEq] at h <;>
    simp [he, ← h]

/-- A receive event's instruction is the receive step, which always has a next state (R88). -/
@[simp] theorem exec_rxEvent (e : RxEvent) (s : State) : exec e.instr s = .next (sourceStep e s) := by
  cases e <;> rfl

/-- What a receive word does in a step (R86, R87). -/
theorem runItem_receive (ev : BitVec 2) (b : Byte) (s : State) :
    (∃ e : RxEvent, decodeReceive ev b = .ok e ∧ runItem (.receive ev b) s = .next (sourceStep e s))
      ∨ (ev = 3 ∧ runItem (.receive ev b) s = .refused (.undecodable .reservedReceiveEvent)) := by
  rcases decodeReceive_cases ev b with ⟨rfl, h⟩ | ⟨rfl, h⟩ | ⟨rfl, h⟩ | ⟨rfl, h⟩
  · exact .inl ⟨_, h, rfl⟩
  · exact .inl ⟨_, h, rfl⟩
  · exact .inl ⟨_, h, rfl⟩
  · exact .inr ⟨rfl, rfl⟩

/-! ### Runs -/

theorem run_succ_next (M : Host.Core) {k : Nat} {s t : M.State} (h : M.step s = .next t) :
    M.run (k + 1) s = M.run k t := by
  simp only [Host.Core.run, h]

theorem run_succ_refused (M : Host.Core) {k : Nat} {s : M.State} {r : M.Refusal}
    (h : M.step s = .refused r) : M.run (k + 1) s = .refused r := by
  simp only [Host.Core.run, h]

theorem runSteps_eq_run (k : Nat) (s : State) : runSteps k s = Sys2Proof.core.run k s := by
  induction k generalizing s with
  | zero => rfl
  | succ k ih =>
    cases hs : step s with
    | next t =>
      exact (show runSteps (k + 1) s = runSteps k t by simp only [runSteps, hs]).trans
        ((ih t).trans (run_succ_next Sys2Proof.core hs).symm)
    | fault r => exact nomatch r
    | refused r =>
      exact (show runSteps (k + 1) s = .refused r by simp only [runSteps, hs]).trans
        (run_succ_refused Sys2Proof.core hs).symm

/-- A run of `m + n` steps is a run of `m` steps and then a run of `n`. -/
theorem runSteps_add {m : Nat} {s t : State} (n : Nat) (h : runSteps m s = .next t) :
    runSteps (m + n) s = runSteps n t := by
  induction m generalizing s with
  | zero =>
    simp only [runSteps, Host.Outcome.next.injEq] at h
    rw [Nat.zero_add, h]
  | succ m ih =>
    rw [Nat.succ_add]
    simp only [runSteps] at h ⊢
    cases hs : step s with
    | next s' => simp only [hs] at h ⊢; exact ih h
    | fault r => simp [hs] at h
    | refused r => simp [hs] at h

/-! ### What a step can do -/

/-- Everything a step that answers a next state can have done: nothing was pending; the block was reset;
or the next item decoded to an instruction, which was performed on the state without the item. -/
theorem step_next_cases {s t : State} (h : step s = .next t) :
    (s.pending = [] ∧ t = s)
      ∨ (∃ rest, s.pending = .reset :: rest ∧ t = { s with pending := rest, rx := Receive.clear })
      ∨ ∃ e rest i, s.pending = .item e :: rest ∧ decode e = .ok i
          ∧ exec i { s with pending := rest } = .next t := by
  unfold step at h
  cases hp : s.pending with
  | nil =>
    rw [State.fetch_nil hp] at h
    exact .inl ⟨rfl, by simpa using h.symm⟩
  | cons x rest =>
    rw [State.fetch_cons hp] at h
    cases x with
    | reset =>
      refine .inr (.inl ⟨rest, rfl, ?_⟩)
      simpa [State.clearReceive] using h.symm
    | item e =>
      simp only [runItem] at h
      cases hd : decode e with
      | error why => simp [hd] at h
      | ok i => exact .inr (.inr ⟨e, rest, i, rfl, hd, by simpa [hd] using h⟩)

end Sys2Proof.Machine
end

