-- ==== Sys2Proof/Tests/Slice0.lean ====
section
/-! SUPPORT. Small tests: the well-formedness checks, one word for every constructor's decoding, one-step
results, and a witness for the hypotheses of each statement. Expected values are the spec's: its encodings
(30_encoding.md) and the vectors of 95_test_vectors.md, whose ids stand in the names or comments. -/

namespace Sys2Proof.Tests

open Sys2Proof.Machine

set_option maxRecDepth 16384

/-! ### Helpers -/

/-- A receive state in the middle of a frame: the given bytes received, with a length byte. -/
def midFrame (st : RxState) (len cnt : Byte) (bytes : List Byte) : Receive :=
  { rxState := st, rxLen := len, rxCnt := cnt, rxFault := .none,
    rxBuf := (List.range bytes.length).zip bytes }

/-- The reset state with another receive state. -/
def withRx (r : Receive) : State := { State.reset with rx := r }

/-- After the type byte 02 (RD14). -/
def typeTaken : State := withRx (midFrame .haveType 0 0 [0x02])

/-- After `02 05` (RD14). -/
def bodyStart : State := withRx (midFrame .body 5 0 [0x02, 0x05])

/-- After `01 04 2A FF 02`: one byte of the frame is missing (RD1). -/
def bodyLast : State := withRx (midFrame .body 4 3 [0x01, 0x04, 0x2A, 0xFF, 0x02])

/-- `FAILED` after `03 05 20` and a close (RD10). -/
def failedMid : State :=
  withRx { midFrame .failed 5 1 [0x03, 0x05, 0x20] with rxFault := .truncated }

/-- `FAILED` after a close at a frame boundary (RD8). -/
def failedIdle : State := withRx { Receive.clear with rxState := .failed, rxFault := .streamClosed }

/-- A block built with `GATED`. -/
def gatedBlock : State := State.boot .gated []

/-- The result record an instruction returns from a state. -/
def resultFrom (s : State) (i : Instr) : Option Result :=
  match exec i s with
  | .next t => t.results.head?
  | .fault _ => none
  | .refused _ => none

/-- The result record an instruction returns after reset. -/
def result (i : Instr) : Option Result := resultFrom State.reset i

def statusOf (i : Instr) : Option Status := (result i).map (·.status)

/-- The receive state, and the output events, after one instruction. -/
def rxAfter (s : State) (i : Instr) : Option (Receive × List RxOut) :=
  match exec i s with
  | .next t => some (t.rx, t.outputs)
  | .fault _ => none
  | .refused _ => none

/-- STATUS after one instruction. -/
def statusAfter (s : State) (i : Instr) : Option Word :=
  match exec i s with
  | .next t => some (statusWord t)
  | .fault _ => none
  | .refused _ => none

/-- What the decoder answers, as an option. -/
def decoded (e : Encoded) : Option Instr :=
  match decode e with
  | .ok i => some i
  | .error _ => none

/-- The name under which the decoder rejects. -/
def rejected (e : Encoded) : Option DecodeError :=
  match decode e with
  | .ok _ => none
  | .error w => some w

/-- Section 2.8: `R1`. -/
def r1 : List Byte := [0x01, 0x0C, 0x2A, 0xFF, 0x02, 0x10, 0x00, 0x00, 0x00, 0xA8, 0x61, 0x34, 0x12, 0x97]

/-- Section 2.8: `R2`. -/
def r2 : List Byte := [0x02, 0x0B, 0x2A, 0xFF, 0x01, 0x00, 0x00, 0x01, 0x00, 0x00, 0x00, 0x17, 0x4F]

/-- Section 2.8: `E1`. -/
def e1 : List Byte := [0x03, 0x0B, 0x20, 0xFF, 0x81, 0x05, 0x00, 0x00, 0x00, 0x64, 0x00, 0xFF, 0x16]

/-- Section 2.8: `X1`. -/
def x1 : List Byte := [0x09, 0x0A, 0x2A, 0xFF, 0x02, 0x01, 0x00, 0x00, 0x00, 0x00, 0x00, 0x3F]

/-- Section 2.8: `X2`. -/
def x2 : List Byte := [0x0A, 0x0B, 0x2A, 0xFF, 0x01, 0x02, 0x00, 0x00, 0x00, 0x12, 0x7A, 0x05, 0xD2]

/-- Section 2.8: `N1`. -/
def n1 : List Byte := [0x01, 0x06, 0x2A, 0xFF, 0x02, 0x34, 0x12, 0x78]

/-! ### Well-formedness: each check refuses an ill-formed term -/

theorem test_wf_value_above_lane_range : (Instr.penc 0x08 [.int (2 ^ 64)]).wf = false := by decide
theorem test_wf_value_below_lane_range : (Instr.encw 0 0 0x88 [.int (-(2 ^ 64) - 1)]).wf = false := by
  decide
theorem test_wf_lane_range_ends : (Instr.penc 0x08 [.int (2 ^ 64 - 1), .int (-(2 ^ 64))]).wf = true := by
  decide
theorem test_wf_too_many_values : (Instr.penc 0x01 (List.replicate 256 (.int 0))).wf = false := by decide
theorem test_wf_too_many_values_encw :
    (Instr.encw 0 0 0x01 (List.replicate 256 (.int 0))).wf = false := by decide
theorem test_wf_pdec_too_long : (Instr.pdec 0x01 (List.replicate 252 0)).wf = false := by decide
theorem test_wf_csum_too_long : (Instr.csum (List.replicate 258 0)).wf = false := by decide
theorem test_wf_decr_too_long : (Instr.decr (List.replicate 258 0)).wf = false := by decide
theorem test_wf_illegal_is_legal : (Instr.illegal [0x09]).wf = false := by decide
theorem test_wf_readReq_descriptor : (Instr.readReq 0x2A 0xFF 0x03).wf = false := by decide
theorem test_wf_writeReq_descriptor : (Instr.writeReq 0x2A 0xFF 0xC4 []).wf = false := by decide
theorem test_wf_writeReq_value : (Instr.writeReq 0x2A 0xFF 0x01 [.int 256]).wf = false := by decide
theorem test_wf_writeReq_too_long :
    (Instr.writeReq 0x2A 0xFF 0x01 (List.replicate 252 (.int 0))).wf = false := by decide
theorem test_wf_read_too_long : (Instr.read (List.replicate 257 0)).wf = false := by decide
theorem test_wf_write_too_long : (Instr.write (List.replicate 257 0)).wf = false := by decide
theorem test_wf_event_too_long : (Instr.event (List.replicate 257 0)).wf = false := by decide
theorem test_wf_readError_too_long : (Instr.readError (List.replicate 257 0)).wf = false := by decide
theorem test_wf_writeError_too_long : (Instr.writeError (List.replicate 257 0)).wf = false := by decide
theorem test_wf_unassigned_too_long : (Instr.replyUnassigned (List.replicate 258 0)).wf = false := by
  decide
theorem test_wf_unassigned_is_assigned : (Instr.replyUnassigned [0x0A, 0x04]).wf = false := by decide
theorem test_wf_ptIllegal_is_legal : (Instr.ptIllegal 0x54).wf = false := by decide

/-! ### Decoding: a word for every constructor, written out from the spec's encoding

R81: op byte, operands, `u16` counts low byte first, lanes `k b_0 … b_7`. -/

theorem test_decode_ptyp : decoded (.command [0x01, 0x82]) = some (.ptyp 0x82) := by decide
-- CP4: the lane of −2 is kind 1 with its low 64 bits
theorem test_decode_penc :
    decoded (.command [0x02, 0x82, 0x01, 0x01, 0xFE, 0xFF, 0xFF, 0xFF, 0xFF, 0xFF, 0xFF, 0xFF])
      = some (.penc 0x82 [.int (-2)]) := by decide
-- CP5: a float lane
theorem test_decode_penc_float :
    decoded (.command [0x02, 0x44, 0x01, 0x02, 0x00, 0x00, 0x80, 0x3F, 0x00, 0x00, 0x00, 0x00])
      = some (.penc 0x44 [.f32 0x3F800000]) := by decide
theorem test_decode_pdec :
    decoded (.command [0x03, 0x02, 0x02, 0x00, 0x34, 0x12]) = some (.pdec 0x02 [0x34, 0x12]) := by decide
theorem test_decode_csum : decoded (.command [0x04, 0x02, 0x00, 0xFF, 0x01]) = some (.csum [0xFF, 0x01]) := by
  decide
theorem test_decode_encr : decoded (.command [0x05, 0x2A, 0xFF, 0x02]) = some (.encr 0x2A 0xFF 0x02) := by
  decide
theorem test_decode_encw :
    decoded (.command [0x06, 0x2A, 0xFF, 0x01, 0x01, 0x00, 0x17, 0x00, 0x00, 0x00, 0x00, 0x00, 0x00, 0x00])
      = some (.encw 0x2A 0xFF 0x01 [.int 23]) := by decide
theorem test_decode_decr :
    decoded (.command (0x07 :: 0x08 :: 0x00 :: n1)) = some (.decr n1) := by decide
theorem test_decode_rst : decoded (.command [0x08]) = some .rst := by decide
theorem test_decode_stat : decoded (.command [0x09]) = some .stat := by decide
-- CP10, CP11, CP12: the op byte alone
theorem test_decode_illegal_op :
    decoded (.command [0x00]) = some (.illegal [0x00]) ∧ decoded (.command [0x0A]) = some (.illegal [0x0A])
      ∧ decoded (.command [0x18]) = some (.illegal [0x18]) := by decide
-- CP13, CP14: too short, too long
theorem test_decode_illegal_length :
    decoded (.command [0x05, 0x2A, 0xFF]) = some (.illegal [0x05, 0x2A, 0xFF])
      ∧ decoded (.command [0x08, 0x00]) = some (.illegal [0x08, 0x00]) := by decide
-- CP15, CP16: malformed lanes
theorem test_decode_illegal_lane :
    decoded (.command [0x02, 0x01, 0x01, 0x03, 0, 0, 0, 0, 0, 0, 0, 0])
        = some (.illegal [0x02, 0x01, 0x01, 0x03, 0, 0, 0, 0, 0, 0, 0, 0])
      ∧ decoded (.command [0x02, 0x44, 0x01, 0x02, 0x00, 0x00, 0x80, 0x3F, 0x01, 0, 0, 0])
        = some (.illegal [0x02, 0x44, 0x01, 0x02, 0x00, 0x00, 0x80, 0x3F, 0x01, 0, 0, 0]) := by decide
-- CP17: a PDEC count of 252 with its 252 bytes
theorem test_decode_illegal_count :
    decoded (.command (0x03 :: 0x01 :: 0xFC :: 0x00 :: List.replicate 252 0))
      = some (.illegal (0x03 :: 0x01 :: 0xFC :: 0x00 :: List.replicate 252 0)) := by decide
theorem test_decode_rxByte : decoded (.receive 0 0x97) = some (.rxByte 0x97) := by decide
theorem test_decode_rxTimeout : decoded (.receive 1 0xFF) = some .rxTimeout := by decide
theorem test_decode_rxClosed : decoded (.receive 2 0xFF) = some .rxClosed := by decide
-- R87: event code 3 is refused by name, whatever the data byte
theorem test_decode_rxReserved :
    rejected (.receive 3 0x00) = some .reservedReceiveEvent
      ∧ rejected (.receive 3 0x97) = some .reservedReceiveEvent := by decide
-- W1
theorem test_decode_readReq :
    decoded (.requestFrame [0x01, 0x04, 0x2A, 0xFF, 0x02, 0x30]) = some (.readReq 0x2A 0xFF 0x02) := by
  decide
-- W2
theorem test_decode_writeReq :
    decoded (.requestFrame [0x02, 0x05, 0x2A, 0xFF, 0x01, 0x17, 0x48])
      = some (.writeReq 0x2A 0xFF 0x01 [.int 23]) := by decide
theorem test_decode_read : decoded (.replyFrame r1) = some (.read r1.tail) := by decide
theorem test_decode_write : decoded (.replyFrame r2) = some (.write r2.tail) := by decide
theorem test_decode_event : decoded (.replyFrame e1) = some (.event e1.tail) := by decide
theorem test_decode_readError : decoded (.replyFrame x1) = some (.readError x1.tail) := by decide
theorem test_decode_writeError : decoded (.replyFrame x2) = some (.writeError x2.tail) := by decide
-- D13: type 0x04
theorem test_decode_replyUnassigned :
    decoded (.replyFrame (0x04 :: r1.tail)) = some (.replyUnassigned (0x04 :: r1.tail)) := by decide
-- R73, in the opcode table's order
theorem test_decode_descriptors :
    [0x01, 0x11, 0x81, 0x91, 0x02, 0x12, 0x82, 0x92, 0x04, 0x14, 0x84, 0x94, 0x08, 0x18, 0x88, 0x98, 0x44,
        0x54].map (fun d => decoded (.descriptor d))
      = [Instr.u8, .tu8, .s8, .ts8, .u16, .tu16, .s16, .ts16, .u32, .tu32, .s32, .ts32, .u64, .tu64, .s64,
        .ts64, .float, .tfloat].map some := by decide
-- PT24, PT29
theorem test_decode_ptIllegal :
    decoded (.descriptor 0x21) = some (.ptIllegal 0x21)
      ∧ decoded (.descriptor 0xC4) = some (.ptIllegal 0xC4) := by decide
-- byte strings that are no request frame: one rejection for each name
theorem test_reject_request :
    rejected (.requestFrame [0x01, 0x04, 0x2A, 0xFF, 0x02]) = some .requestTooShort
      ∧ rejected (.requestFrame [0x01, 0x05, 0x2A, 0xFF, 0x02, 0x31]) = some .requestLength
      ∧ rejected (.requestFrame [0x01, 0x04, 0x2A, 0xFF, 0x02, 0x31]) = some .requestChecksum
      ∧ rejected (.requestFrame [0x03, 0x04, 0x2A, 0xFF, 0x02, 0x32]) = some .requestType
      ∧ rejected (.requestFrame [0x01, 0x04, 0x2A, 0xFF, 0x03, 0x31]) = some .requestDescriptor
      ∧ rejected (.requestFrame [0x02, 0x05, 0x2A, 0xFF, 0x02, 0x17, 0x49]) = some .requestPayload := by
  decide
theorem test_reject_reply : rejected (.replyFrame (List.replicate 258 0x01)) = some .replyTooLong := by
  decide
theorem test_table_word :
    decodeTableWord 8 0x08 = some .rst ∧ decodeTableWord 2 2 = some .rxClosed
      ∧ decodeTableWord 8 0x94 = some .ts32 ∧ decodeTableWord 8 0x0A = some (.writeError [0x00])
      ∧ decodeTableWord 8 0x05 = some (.encr 0 0 0) := by decide
theorem test_fetch_word :
    (match step (State.reset.withFetchWord 8 0x09) with
      | .next t => t.results == [Result.ofWord 0] && t.pending.isEmpty
      | .fault _ => false
      | .refused _ => false) = true := by decide

/-! ### Results -/

-- PT4 and PT30
theorem test_ptyp : result (.ptyp 0x82) = some { status := .ok, desc := some ⟨2, true, false, false⟩ } := by
  decide
theorem test_ptyp_illegal : result (.ptyp 0xD4) = some { status := .invalidPayloadType } := by decide
-- PE7 and PE19
theorem test_penc : result (.penc 0x84 [.int (-1), .int 1])
    = some { status := .ok, bytes := [0xFF, 0xFF, 0xFF, 0xFF, 0x01, 0x00, 0x00, 0x00] } := by decide
theorem test_penc_range : result (.penc 0x88 [.int (-(2 ^ 63) - 1)]) = some { status := .encodingError } := by
  decide
-- PD5 and PD13
theorem test_pdec : result (.pdec 0x82 [0xFE, 0xFF, 0x00, 0x80])
    = some { status := .ok, values := [.int (-2), .int (-32768)] } := by decide
theorem test_pdec_ragged : result (.pdec 0x04 [1, 2, 3, 4, 5, 6]) = some { status := .decodingError } := by
  decide
-- CS3 and CS9
theorem test_csum : result (.csum [0x02, 0x05, 0x2A, 0xFF, 0x01, 0x17])
    = some { status := .ok, cs := some 0x48 } := by decide
theorem test_csum_wraps : result (.csum (List.replicate 257 0xFF)) = some { status := .ok, cs := some 0xFF } := by
  decide
-- W1 and ER7
theorem test_encr : result (.encr 0x2A 0xFF 0x02)
    = some { status := .ok, bytes := [0x01, 0x04, 0x2A, 0xFF, 0x02, 0x30] } := by decide
theorem test_encr_zero_checksum : result (.encr 0xF6 0x05 0x01)
    = some { status := .ok, bytes := [0x01, 0x04, 0xF6, 0x05, 0x01, 0x01] } := by decide
-- W2, and P4 step 3
theorem test_encw : result (.encw 0x2A 0xFF 0x01 [.int 23])
    = some { status := .ok, bytes := [0x02, 0x05, 0x2A, 0xFF, 0x01, 0x17, 0x48] } := by decide
theorem test_encw_float : result (.encw 0x2A 0xFF 0x44 [.f32 0x3F800000])
    = some { status := .ok, bytes := [0x02, 0x08, 0x2A, 0xFF, 0x44, 0x00, 0x00, 0x80, 0x3F, 0x36] } := by
  decide
/-- D1: the reply record of `R1`. -/
def r1Reply : Reply :=
  { kind := .read, msgType := 0x01, length := 12, address := 0x2A, port := 0xFF, payloadType := 0x02,
    timestamp := some ⟨16, 25000⟩, payload := [0x34, 0x12], values := [.int 4660], checksum := 0x97 }

-- and D21: under GATED the timestamp bytes are read as payload
theorem test_decr : result (.decr r1) = some { status := .ok, reply := some r1Reply }
    ∧ (resultFrom gatedBlock (.decr r1)).bind (·.reply) = some
      { r1Reply with
        timestamp := none
        payload := [0x10, 0x00, 0x00, 0x00, 0xA8, 0x61, 0x34, 0x12]
        values := [.int 16, .int 0, .int 25000, .int 4660] } := by decide
-- D18, D10, D11, D16, D12, D13, D14, D15
theorem test_decr_errors :
    statusOf (.decr n1) = some .truncatedFrame ∧ statusOf (.decr (r1.take 11)) = some .truncatedFrame
      ∧ statusOf (.decr (r1 ++ [0x00])) = some .frameLengthMismatch
      ∧ statusOf (.decr [0x01, 0x05, 0x2A, 0xFF, 0x02, 0, 0, 0, 0, 0, 0, 0]) = some .frameLengthMismatch
      ∧ statusOf (.decr (r1.dropLast ++ [0x96])) = some .checksumMismatch
      ∧ statusOf (.decr [0x04, 0x0C, 0x2A, 0xFF, 0x02, 0x10, 0, 0, 0, 0xA8, 0x61, 0x34, 0x12, 0x9A])
        = some .invalidMessageType
      ∧ statusOf (.decr [0x01, 0x0C, 0x2A, 0xFF, 0x03, 0x10, 0, 0, 0, 0xA8, 0x61, 0x34, 0x12, 0x98])
        = some .invalidPayloadType
      ∧ statusOf (.decr [0x01, 0x0D, 0x2A, 0xFF, 0x02, 0x10, 0, 0, 0, 0xA8, 0x61, 0x34, 0x12, 0x56, 0xEE])
        = some .decodingError := by decide
theorem test_rst : rxAfter failedMid .rst = some (Receive.clear, [])
    ∧ resultFrom failedMid .rst = some { status := .ok } := by decide
-- R211, and P5 step 1
theorem test_stat : resultFrom bodyStart .stat = some { status := .ok, word := some 0x00000502 } := by decide
theorem test_stat_gated : resultFrom gatedBlock .stat = some { status := .ok, word := some 0x01000000 } := by
  decide
theorem test_illegal : result (.illegal [0x0A]) = some { status := .illegalOperation } := by decide
-- RD1: the sixth byte; RD13: a length byte of 0
theorem test_rxByte_frame :
    rxAfter bodyLast (.rxByte 0x30) = some (Receive.clear, [.frame [0x01, 0x04, 0x2A, 0xFF, 0x02, 0x30]])
      ∧ rxAfter (withRx (midFrame .haveType 0 0 [0x03])) (.rxByte 0x00)
        = some (Receive.clear, [.frame [0x03, 0x00]]) := by decide
-- RD14, and RD11
theorem test_rxByte_status : statusAfter typeTaken (.rxByte 0x05) = some 0x00000502
    ∧ rxAfter failedMid (.rxByte 0x01) = some (failedMid.rx, []) := by decide
-- RD7, RD6 and RD4
theorem test_rxTimeout_body :
    statusAfter (withRx (midFrame .body 0x0B 1 [0x02, 0x0B, 0x2A])) .rxTimeout = some 0x00010B07 := by decide
theorem test_rxTimeout :
    statusAfter typeTaken .rxTimeout = some 0x00000007
      ∧ rxAfter State.reset .rxTimeout = some (Receive.clear, [.noFrame]) := by decide
-- RD8 and RD10
theorem test_rxClosed_idle : statusAfter State.reset .rxClosed = some 0x0000000B := by decide
theorem test_rxClosed_body :
    rxAfter (withRx (midFrame .body 5 1 [0x03, 0x05, 0x20])) .rxClosed
      = some (failedMid.rx, [.fault .truncatedFrame]) ∧ statusWord failedMid = 0x00010507 := by decide
theorem test_rxReserved :
    (match exec .rxReserved State.reset with
      | .refused r => decide (r = .undecodable .reservedReceiveEvent)
      | .next _ => false
      | .fault _ => false) = true := by decide
theorem test_readReq : result (.readReq 0x2A 0xFF 0x12)
    = some { status := .ok, bytes := [0x01, 0x04, 0x2A, 0xFF, 0x12, 0x40] } := by decide
theorem test_writeReq : result (.writeReq 0x2A 0xFF 0x01 [.int 23])
    = some { status := .ok, bytes := [0x02, 0x05, 0x2A, 0xFF, 0x01, 0x17, 0x48] } := by decide
-- D2, D3, D5, D6: the kind and the values
theorem test_reply_rows :
    [Instr.read r1.tail, .write r2.tail, .event e1.tail, .readError x1.tail, .writeError x2.tail].map
        (fun i => ((result i).bind (·.reply)).map fun m => (m.kind, m.values))
      = [some (.read, [.int 4660]), some (.write, [.int 23]), some (.event, [.int (-1)]),
        some (.readError, []), some (.writeError, [.int 5])] := by decide
theorem test_replyUnassigned :
    statusOf (.replyUnassigned [0x04, 0x0C, 0x2A, 0xFF, 0x02, 0x10, 0, 0, 0, 0xA8, 0x61, 0x34, 0x12, 0x9A])
      = some .invalidMessageType := by decide
theorem test_descriptor_rows :
    result .ts32 = some { status := .ok, desc := some ⟨4, true, false, true⟩ }
      ∧ result .tfloat = some { status := .ok, desc := some ⟨4, false, true, true⟩ }
      ∧ result (.ptIllegal 0x48) = some { status := .invalidPayloadType } := by decide

/-! ### Notation (R90, R91) -/

theorem test_assemble_encw :
    Assembly.assemble "ENCW 42, U8, [23]".toList = some [.encw 0x2A 0xFF 0x01 [.int 23]] := by decide
theorem test_assemble_penc :
    Assembly.assemble "PENC Float, [f32:0x3F800000, -2]".toList
      = some [.penc 0x44 [.f32 0x3F800000, .int (-2)]] := by decide

/-! ### Witnesses: states and operands that meet the hypotheses of each statement -/

theorem witness_reset_is_default_build : State.boot .always [] = State.reset := by decide
theorem witness_BlockResetStep :
    ({ failedMid with pending := [.reset] } : State).pending = .reset :: [] := rfl
theorem witness_inv_idle : State.reset.rx.Inv := by decide
theorem witness_inv_haveType : typeTaken.rx.Inv ∧ typeTaken.rx.rxState = .haveType := by decide
theorem witness_inv_body : bodyStart.rx.Inv ∧ bodyStart.rx.rxState = .body
    ∧ bodyStart.rx.rxCnt.toNat + 1 ≠ bodyStart.rx.rxLen.toNat := by decide
theorem witness_inv_last : bodyLast.rx.Inv ∧ bodyLast.rx.rxState = .body
    ∧ bodyLast.rx.rxCnt.toNat + 1 = bodyLast.rx.rxLen.toNat
    ∧ bodyLast.rx.rxCnt + 1 = bodyLast.rx.rxLen := by decide
theorem witness_inv_failed : failedMid.rx.Inv ∧ failedMid.rx.rxState = .failed
    ∧ failedIdle.rx.Inv ∧ failedIdle.rx.rxState = .failed := by decide
-- the boundary of RX_CNT: 254 of 255 bytes received
theorem witness_inv_largest :
    (midFrame .body 255 254 (0x02 :: 0xFF :: List.replicate 254 0)).Inv := by decide
theorem witness_haveType_first_byte : typeTaken.rx.rxBuf.read? 0 = some 0x02 := by decide
theorem witness_StepKeepsReaderInv :
    ({ bodyLast with pending := [.item (.receive 0 0x30)] } : State).rx.Inv
      ∧ ∃ t, step { bodyLast with pending := [.item (.receive 0 0x30)] } = .next t :=
  ⟨by decide, _, rfl⟩
theorem witness_Reachable : ∃ s, Reachable s ∧ s.rx = failedIdle.rx :=
  ⟨_, (Reachable.boot .always [.item (.receive 2 0x00)]).step rfl, rfl⟩
theorem witness_ReaderTransitions :
    (∃ t, exec (.rxByte 0) typeTaken = .next t) ∧ (∃ t, exec (.rxByte 5) typeTaken = .next t)
      ∧ (∃ t, exec .rxTimeout bodyStart = .next t) ∧ (∃ t, exec .rxClosed State.reset = .next t)
      ∧ ∃ t, step { bodyStart with pending := [.reset] } = .next t :=
  ⟨⟨_, rfl⟩, ⟨_, rfl⟩, ⟨_, rfl⟩, ⟨_, rfl⟩, ⟨_, rfl⟩⟩
theorem witness_FailedIsSticky :
    failedMid.rx.rxState = .failed
      ∧ (∃ t, step { failedMid with pending := [.reset] } = .next t ∧ t.rx.rxState ≠ .failed)
      ∧ ∃ t, step { failedMid with pending := [.item (.command [0x08])] } = .next t
          ∧ t.rx.rxState ≠ .failed :=
  ⟨rfl, ⟨_, rfl, by decide⟩, _, rfl, by decide⟩
theorem witness_DatapathResultFromOperands :
    (Instr.decr r1).format = .command ∧ Instr.decr r1 ≠ .rst ∧ Instr.decr r1 ≠ .stat
      ∧ gatedBlock.tsPolicy = .gated := by decide
theorem witness_RepeatedCommands :
    Instr.format .stat = .command ∧ Instr.stat ≠ .rst
      ∧ (∃ t, exec .stat bodyStart = .next t ∧ ∃ u, exec .stat t = .next u)
      ∧ ∃ t, exec .rst bodyStart = .next t ∧ ∃ u, exec .rst t = .next u :=
  ⟨rfl, by decide, ⟨_, rfl, _, rfl⟩, _, rfl, _, rfl⟩
theorem witness_ResetValues : bodyStart.tsPolicy = .always ∧ ∃ t, exec .rst bodyStart = .next t :=
  ⟨rfl, _, rfl⟩
theorem witness_ErrorsReturnNothingElse :
    ∃ t r, exec (.ptyp 0x00) State.reset = .next t ∧ t.results = State.reset.results ++ [r]
      ∧ r.status ≠ .ok :=
  ⟨_, Result.fail .invalidPayloadType, rfl, rfl, by decide⟩
theorem witness_EveryInstructionCompletes : Instr.rxByte 0 ≠ .rxReserved := by decide
theorem witness_ReservedEventRefused :
    ({ State.reset with pending := [.item (.receive 3 0xFF)] } : State).pending
        = .item (.receive 3 0xFF) :: []
      ∧ (0 : BitVec 2) ≠ 3 ∧ (2 : BitVec 2) ≠ 3 := by decide
-- the smallest frame, the source's Read request, and the largest frame
theorem witness_IsFrame :
    IsFrame [0x03, 0x00] ∧ IsFrame [0x01, 0x04, 0x2A, 0xFF, 0x02, 0x30]
      ∧ IsFrame (0x02 :: 0xFF :: List.replicate 255 0) ∧ State.reset.rx = Receive.clear := by decide
theorem witness_StreamEmitsItsFrames : ∀ f ∈ [r1, [0x03, 0x00], e1], IsFrame f := by decide
-- right after the type byte, right after the length byte, and one byte before the end
theorem witness_MidFrameEndTruncates :
    IsFrame n1 ∧ (0 < 1 ∧ 1 < n1.length) ∧ (0 < 2 ∧ 2 < n1.length) ∧ (0 < 7 ∧ 7 < n1.length) := by decide
theorem witness_CommandsInvisibleToReader :
    State.reset.pending = []
      ∧ ∃ t, runSteps 3 { State.reset with
          pending := [.item (.receive 0 0x01), .item (.command [0x09]), .item (.receive 1 0x00)] } = .next t :=
  ⟨rfl, _, rfl⟩
theorem witness_CsumResult : (List.replicate 257 (0xFF : Byte)).length ≤ 257
    ∧ 257 < (0x02 : Byte).toNat + 256 * (0x01 : Byte).toNat := by decide
theorem witness_SingleByteErrorDetected :
    -- a data byte and the checksum byte itself
    (11 < r1.length ∧ (0x35 : Byte) ≠ byteAt r1 11) ∧ (13 < r1.length ∧ (0x96 : Byte) ≠ byteAt r1 13)
      ∧ byteAt r1 (r1.length - 1) = checksum (r1.take (r1.length - 1)) := by decide
theorem witness_ReorderingUndetected :
    ([0x01, 0x02] : List Byte).Perm [0x02, 0x01]
      ∧ (256 : Int) ∣ ((([0x80, 0x80] : List Byte).map BitVec.toNat).sum : Int)
        - (([] : List Byte).map BitVec.toNat).sum := by decide
theorem witness_DescriptorTable :
    ((0x01 : Byte), Instr.u8, (⟨1, false, false, false⟩ : Desc))
      ∈ [((0x01 : Byte), Instr.u8, (⟨1, false, false, false⟩ : Desc))] := by decide
theorem witness_legal_and_illegal :
    (0x54 : Byte) ∈ legalDescriptors ∧ (0xD4 : Byte) ∉ legalDescriptors ∧ (0x21 : Byte) ∉ legalDescriptors
      ∧ (0x03 : Byte) ∉ legalDescriptors := by decide
theorem witness_IllegalDescriptorRaises :
    (0x04 : Byte) ∉ assignedTypes.map Prod.fst ∧ (0x0A : Byte) ∈ assignedTypes.map Prod.fst
      ∧ UsesLayoutT .always 0x03 ∧ UsesLayoutT .gated 0x13 ∧ ¬ UsesLayoutT .gated 0x03
      ∧ (List.replicate 245 (0 : Byte)).length ≤ 245 :=
  ⟨by decide, by decide, .inl rfl, .inr (by decide), by rintro (h | h) <;> revert h <;> decide, by decide⟩
-- the largest payload that is accepted and the smallest that is not
theorem witness_PencResult :
    valuesWf [.int (-(2 ^ 64)), .int (2 ^ 64 - 1)] = true
      ∧ (∀ v ∈ List.replicate 251 (PVal.int 255), v.fits 0x01 = true)
      ∧ (List.replicate 251 (PVal.int 255)).length * descWidth 0x01 ≤ 251
      ∧ 251 < (List.replicate 126 (PVal.int 0)).length * descWidth 0x02
      ∧ ¬ (∀ v ∈ [PVal.f32 0], v.fits 0x01 = true) ∧ ¬ (∀ v ∈ [PVal.int 256], v.fits 0x01 = true) := by
  decide
theorem witness_PdecResult :
    (List.replicate 251 (0 : Byte)).length ≤ 251 ∧ [(0 : Byte)].length % descWidth 0x02 ≠ 0
      ∧ ([] : List Byte).length % descWidth 0x98 = 0 := by decide
theorem witness_PayloadRoundTrips :
    (0x88 : Byte) ∈ legalDescriptors
      ∧ (∀ v ∈ [PVal.int (-(2 ^ 63)), .int (2 ^ 63 - 1)], v.fits 0x88 = true)
      ∧ [PVal.int (-(2 ^ 63)), .int (2 ^ 63 - 1)].length * descWidth 0x88 ≤ 251
      ∧ (List.replicate 248 (0xFF : Byte)).length % descWidth 0x88 = 0 := by decide
theorem witness_EncodedFramesWellFormed :
    ∃ r, exec (.encr 0x2A 0xFF 0x02) State.reset
        = .next { State.reset with results := State.reset.results ++ [r] } ∧ r.status = .ok
      ∧ State.reset.rx = Receive.clear :=
  ⟨Result.ofBytes [0x01, 0x04, 0x2A, 0xFF, 0x02, 0x30], rfl, rfl, rfl⟩
theorem witness_DecrLayoutT :
    ((0x0A : Byte), MsgKind.writeError) ∈ assignedTypes ∧ (0x01 : Byte) ∈ legalDescriptors
      ∧ (∀ v ∈ List.replicate 245 (PVal.int 255), v.fits 0x01 = true)
      ∧ (List.replicate 245 (PVal.int 255)).length * descWidth 0x01 ≤ 245 := by decide
theorem witness_DecrLayoutT_policies :
    UsesLayoutT State.reset.tsPolicy 0x01 ∧ UsesLayoutT gatedBlock.tsPolicy 0x11 :=
  ⟨.inl rfl, .inr (by decide)⟩
theorem witness_DecrLayoutN :
    ((0x01 : Byte), MsgKind.read) ∈ assignedTypes ∧ (0x02 : Byte) ∈ legalDescriptors
      ∧ gatedBlock.tsPolicy = .gated ∧ (0x02 : Byte).getLsbD 4 = false
      ∧ (∀ v ∈ [PVal.int 65535], v.fits 0x02 = true) ∧ [PVal.int 65535].length * descWidth 0x02 ≤ 251 := by
  decide
-- the layouts are the spec's frames: E1, and N1
theorem witness_layouts :
    layoutT 0x03 0x20 0xFF 0x81 ⟨5, 100⟩ [0xFF] = e1 ∧ layoutN 0x01 0x2A 0xFF 0x02 [0x34, 0x12] = n1
      ∧ payloadOf 0x81 [.int (-1)] = [0xFF] ∧ payloadOf 0x02 [.int 0x1234] = [0x34, 0x12] := by decide
theorem witness_DecrResult :
    14 = r1.length ∧ 11 = (if State.reset.tsPolicy = .gated ∧ (byteAt r1 4).getLsbD 4 = false then 5 else 11)
      ∧ 5 = (if gatedBlock.tsPolicy = .gated ∧ (byteAt n1 4).getLsbD 4 = false then 5 else 11)
      ∧ r1.length ≤ 257 := by decide
theorem witness_RequestRowsAreBuiltFrames :
    decoded (.requestFrame [0x02, 0x04, 0x2A, 0xFF, 0x01, 0x30]) = some (.writeReq 0x2A 0xFF 0x01 []) := by
  decide
theorem witness_ReplyRowKinds :
    byteAt [0x04, 0x00] 0 ∉ assignedTypes.map Prod.fst
      ∧ ((result (.read r1.tail)).map (·.status)) = some .ok := by decide
-- each assigned type byte, the bytes next to them, the longest frame and the empty byte string
theorem witness_ReplyFramesDecodeToTheirRow :
    (List.replicate 257 (0 : Byte)).length ≤ 257
      ∧ r1 = 0x01 :: r1.tail ∧ r2 = 0x02 :: r2.tail ∧ e1 = 0x03 :: e1.tail ∧ x1 = 0x09 :: x1.tail
      ∧ x2 = 0x0A :: x2.tail
      ∧ (∀ t ∈ ([0x00, 0x04, 0x08, 0x0B, 0xFF] : List Byte),
          t ∉ ([0x01, 0x02, 0x03, 0x09, 0x0A] : List Byte))
      ∧ ([] : List Byte).length ≤ 257 := by decide
theorem witness_IllegalCommandResult :
    ([0x18] : List Byte) ≠ [] ∧ commandLength [0x05, 0x2A, 0xFF] = 4 ∧ byteLimit [0x03, 0x01, 0xFC, 0x00] = 251
      ∧ byteCount [0x07, 0x02, 0x01] = 258 ∧ byteLimit [0x07, 0x02, 0x01] = 257 := by decide
theorem witness_LaneEncodingUnique :
    (PVal.int (-(2 ^ 64))).wf = true ∧ (PVal.int (2 ^ 64 - 1)).wf = true ∧ (PVal.int (2 ^ 64)).wf = false
      ∧ encodeLane (.int (-2)) = [0x01, 0xFE, 0xFF, 0xFF, 0xFF, 0xFF, 0xFF, 0xFF, 0xFF] := by decide
theorem witness_DecodeOfEncode :
    (Instr.writeReq 0x2A 0xFF 0x98 [.int (-1)]).wf = true ∧ (Instr.illegal [0x08, 0x00]).wf = true
      ∧ (Instr.replyUnassigned []).wf = true := by decide
theorem witness_DecodedIsWellFormed : decoded (.command [0x18]) = some (.illegal [0x18])
    ∧ (Instr.illegal [0x18]).wf = true := by decide
theorem witness_StepRunsDecodedItem :
    ({ State.reset with pending := [.item (.command [0x09])] } : State).pending
        = .item (.command [0x09]) :: []
      ∧ decoded (.command [0x09]) = some .stat ∧ rejected (.requestFrame []) = some .requestTooShort
      ∧ State.reset.pending = [] := by decide

end Sys2Proof.Tests
end

section
/-! The build-time parameter `TS_POLICY` (R6, R26): what an instruction can do to the state, and that no
step changes the parameter. -/

namespace Sys2Proof.Machine

/-! ### What an instruction can do -/

@[simp] theorem sourceStep_tsPolicy (e : RxEvent) (s : State) :
    (sourceStep e s).tsPolicy = s.tsPolicy := rfl

/-- Everything an instruction that answers a next state can have done. RST clears the receive state and
answers (R210); a receive event is a step of the receive source (R88); every other instruction returns one
result record and does nothing else (R84, R27). RX_RESERVED answers no next state (R87). -/
theorem exec_next_cases {i : Instr} {s t : State} (h : exec i s = .next t) :
    (i = .rst ∧ t = s.clearReceive.respond Result.done)
      ∨ (∃ e : RxEvent, i = e.instr ∧ t = sourceStep e s)
      ∨ (i ≠ .rst ∧ i.format ≠ .receiveEvent ∧ ∃ r : Result, t = s.respond r) := by
  cases i with
  | rst => cases h; exact .inl ⟨rfl, rfl⟩
  | rxByte b => cases h; exact .inr (.inl ⟨.rxByte b, rfl, rfl⟩)
  | rxTimeout => cases h; exact .inr (.inl ⟨.rxTimeout, rfl, rfl⟩)
  | rxClosed => cases h; exact .inr (.inl ⟨.rxClosed, rfl, rfl⟩)
  | rxReserved => cases h
  | _ => cases h; exact .inr (.inr ⟨nofun, nofun, _, rfl⟩)

/-! ### `TS_POLICY` -/

theorem exec_keeps_tsPolicy {i : Instr} {s t : State} (h : exec i s = .next t) :
    t.tsPolicy = s.tsPolicy := by
  obtain ⟨-, rfl⟩ | ⟨e, -, rfl⟩ | ⟨-, -, r, rfl⟩ := exec_next_cases h
  · simp only [State.respond_tsPolicy, State.clearReceive_tsPolicy]
  · exact sourceStep_tsPolicy e s
  · exact State.respond_tsPolicy s r

/-- Settles O9, by the cases of a step: nothing pending, the block reset, or an instruction performed on
the state without its item. -/
theorem stepKeepsTsPolicy : Obligations.StepKeepsTsPolicy := by
  intro s t h
  obtain ⟨-, rfl⟩ | ⟨rest, -, rfl⟩ | ⟨e, rest, i, -, -, hexec⟩ := step_next_cases h
  · rfl
  · rfl
  · simpa only using exec_keeps_tsPolicy hexec

end Sys2Proof.Machine
end

section
/-! The receive state (R20 to R24): the rules it meets in each reader state, that the reader's transitions,
every step and so every run keep them, and the reset values (R34). -/

namespace Sys2Proof.Machine

/-! ### The rules in each reader state -/

theorem Receive.inv_iff_of_idle {r : Receive} (h : r.rxState = .idle) :
    r.Inv ↔ (r.rxLen = 0 ∧ r.rxCnt = 0) ∧ r.rxFault = .none ∧ r.rxBuf = [] := by
  simp [Receive.Inv, Receive.CountsOk, Receive.FaultOk, Receive.BufferOk, Receive.definedLen, h]

theorem Receive.inv_iff_of_haveType {r : Receive} (h : r.rxState = .haveType) :
    r.Inv ↔ (r.rxLen = 0 ∧ r.rxCnt = 0) ∧ r.rxFault = .none
      ∧ r.rxBuf.map Prod.fst = List.range 1 := by
  simp [Receive.Inv, Receive.CountsOk, Receive.FaultOk, Receive.BufferOk, Receive.definedLen, h]

theorem Receive.inv_iff_of_body {r : Receive} (h : r.rxState = .body) :
    r.Inv ↔ r.rxCnt.toNat < r.rxLen.toNat ∧ r.rxFault = .none
      ∧ r.rxBuf.map Prod.fst = List.range (2 + r.rxCnt.toNat) := by
  simp [Receive.Inv, Receive.CountsOk, Receive.FaultOk, Receive.BufferOk, Receive.definedLen, h]

theorem Receive.inv_iff_of_failed {r : Receive} (h : r.rxState = .failed) :
    r.Inv ↔ ((r.rxLen = 0 ∧ r.rxCnt = 0) ∨ (r.rxFault = .truncated ∧ r.rxCnt.toNat < r.rxLen.toNat))
      ∧ r.rxFault ≠ .none
      ∧ r.rxBuf.map Prod.fst = List.range
          (if r.rxFault = .streamClosed then 0 else if r.rxLen = 0 then 1 else 2 + r.rxCnt.toNat) := by
  simp [Receive.Inv, Receive.CountsOk, Receive.FaultOk, Receive.BufferOk, Receive.definedLen, h]

theorem Receive.inv_clear : Receive.clear.Inv :=
  (Receive.inv_iff_of_idle rfl).2 ⟨⟨rfl, rfl⟩, rfl, rfl⟩

/-- R25: `rx_cnt` is at most 254, as it is 0 or below `rx_len` (R22). -/
theorem Receive.Inv.rxCnt_le {r : Receive} (hr : r.Inv) : r.rxCnt.toNat ≤ 254 := by
  obtain ⟨⟨hidle, htype, hbody, hfailed⟩, -, -⟩ := hr
  have hcnt : r.rxCnt = 0 ∨ r.rxCnt.toNat < r.rxLen.toNat := by
    cases hs : r.rxState with
    | idle => exact .inl (hidle hs).2
    | haveType => exact .inl (htype hs).2
    | body => exact .inr (hbody hs)
    | failed => exact (hfailed hs).imp And.right And.right
  have hlen : r.rxLen.toNat < 256 := r.rxLen.isLt
  obtain h0 | hlt := hcnt
  · simp [h0]
  · omega

/-! ### The reader's transitions keep the rules -/

/-- Where exactly the indices below `n` are listed, storing at `n` lists exactly those below `n + 1`. -/
theorem rxStore_indices {m : Memory} {n : Nat} (v : Byte) (h : m.map Prod.fst = List.range n)
    (hn : n < Config.frameMax) : (rxStore m n v).map Prod.fst = List.range (n + 1) := by
  rw [rxStore_next m n v h hn, List.map_append, h, List.range_succ]
  rfl

theorem takeType_keeps_inv (b : Byte) {r : Receive} (hs : r.rxState = .idle) (hr : r.Inv) :
    (takeType b r).1.Inv := by
  obtain ⟨-, hfault, hbuf⟩ := (Receive.inv_iff_of_idle hs).1 hr
  have hstore := rxStore_indices (m := r.rxBuf) (n := 0) b (by rw [hbuf]; rfl) (by decide)
  exact (Receive.inv_iff_of_haveType rfl).2 ⟨⟨rfl, rfl⟩, hfault, hstore⟩

/-- A completed frame leaves the reader at a frame boundary, with nothing defined in `rx_buf`. -/
theorem finishFrame_inv (buf : Memory) (n : Nat) {r : Receive} (hfault : r.rxFault = .none) :
    (finishFrame buf n r).1.Inv :=
  (Receive.inv_iff_of_idle rfl).2 ⟨⟨rfl, rfl⟩, hfault, rfl⟩

theorem takeLength_keeps_inv (b : Byte) {r : Receive} (hs : r.rxState = .haveType) (hr : r.Inv) :
    (takeLength b r).1.Inv := by
  obtain ⟨-, hfault, hbuf⟩ := (Receive.inv_iff_of_haveType hs).1 hr
  unfold takeLength
  split
  case isTrue => exact finishFrame_inv _ _ hfault
  case isFalse hb =>
    have hpos : 0 < b.toNat := Nat.pos_of_ne_zero fun h0 => hb (BitVec.eq_of_toNat_eq h0)
    exact (Receive.inv_iff_of_body rfl).2 ⟨hpos, hfault, rxStore_indices b hbuf (by decide)⟩

theorem takeBody_keeps_inv (b : Byte) {r : Receive} (hs : r.rxState = .body) (hr : r.Inv) :
    (takeBody b r).1.Inv := by
  obtain ⟨hlt, hfault, hbuf⟩ := (Receive.inv_iff_of_body hs).1 hr
  have hlen : r.rxLen.toNat < 256 := r.rxLen.isLt
  unfold takeBody
  split
  case isTrue => exact finishFrame_inv _ _ hfault
  case isFalse hne =>
    have hnext : (r.rxCnt + 1).toNat = r.rxCnt.toNat + 1 := by
      rw [BitVec.toNat_add]; exact Nat.mod_eq_of_lt (by simp; omega)
    have hlast : r.rxCnt.toNat + 1 ≠ r.rxLen.toNat := fun h =>
      hne (BitVec.eq_of_toNat_eq (hnext.trans h))
    have hbound : 2 + r.rxCnt.toNat < Config.frameMax := by simp only [Config.frameMax]; omega
    refine (Receive.inv_iff_of_body (r := Prod.fst _) hs).2 ⟨?_, hfault, ?_⟩
    · simp only [hnext]; omega
    · simp only [hnext]; exact rxStore_indices b hbuf hbound

theorem takeByte_keeps_inv (b : Byte) {r : Receive} (hr : r.Inv) : (takeByte b r).1.Inv := by
  unfold takeByte
  split
  case h_1 hs => exact takeType_keeps_inv b hs hr
  case h_2 hs => exact takeLength_keeps_inv b hs hr
  case h_3 hs => exact takeBody_keeps_inv b hs hr
  case h_4 => exact hr

/-- A stream that ends at a frame boundary: nothing of `rx_buf` is defined (R203). -/
theorem enterFailed_streamClosed_inv {r : Receive} (hs : r.rxState = .idle) (hr : r.Inv) :
    (enterFailed .streamClosed r).1.Inv := by
  obtain ⟨hcounts, -, hbuf⟩ := (Receive.inv_iff_of_idle hs).1 hr
  exact (Receive.inv_iff_of_failed rfl).2 ⟨.inl hcounts, nofun, by simp [hbuf]⟩

/-- A stream that ends after the type byte: that byte stays defined, and `rx_len` is 0 (R202, R203). -/
theorem enterFailed_truncated_inv_of_haveType {r : Receive} (hs : r.rxState = .haveType)
    (hr : r.Inv) : (enterFailed .truncated r).1.Inv := by
  obtain ⟨hcounts, -, hbuf⟩ := (Receive.inv_iff_of_haveType hs).1 hr
  exact (Receive.inv_iff_of_failed rfl).2 ⟨.inl hcounts, nofun, by simpa [hcounts] using hbuf⟩

/-- A stream that ends after the length byte: the frame so far stays defined (R202, R203). -/
theorem enterFailed_truncated_inv_of_body {r : Receive} (hs : r.rxState = .body) (hr : r.Inv) :
    (enterFailed .truncated r).1.Inv := by
  obtain ⟨hlt, -, hbuf⟩ := (Receive.inv_iff_of_body hs).1 hr
  have hlen : r.rxLen ≠ 0#8 := fun h0 => by simp [h0] at hlt
  exact (Receive.inv_iff_of_failed rfl).2 ⟨.inr ⟨rfl, hlt⟩, nofun, by simpa [hlen] using hbuf⟩

theorem takeTimeout_keeps_inv {r : Receive} (hr : r.Inv) : (takeTimeout r).1.Inv := by
  unfold takeTimeout
  split
  case h_1 => exact hr
  case h_2 hs => exact enterFailed_truncated_inv_of_haveType hs hr
  case h_3 hs => exact enterFailed_truncated_inv_of_body hs hr
  case h_4 => exact hr

theorem takeClosed_keeps_inv {r : Receive} (hr : r.Inv) : (takeClosed r).1.Inv := by
  unfold takeClosed
  split
  case h_1 hs => exact enterFailed_streamClosed_inv hs hr
  case h_2 hs => exact enterFailed_truncated_inv_of_haveType hs hr
  case h_3 hs => exact enterFailed_truncated_inv_of_body hs hr
  case h_4 => exact hr

theorem receiveStep_keeps_inv (e : RxEvent) {r : Receive} (hr : r.Inv) : (receiveStep e r).1.Inv := by
  cases e with
  | rxByte b => exact takeByte_keeps_inv b hr
  | rxTimeout => exact takeTimeout_keeps_inv hr
  | rxClosed => exact takeClosed_keeps_inv hr

theorem receiveStep_wf (e : RxEvent) {r : Receive} (hm : r.rxBuf.wf = true) :
    (receiveStep e r).1.rxBuf.wf = true := by
  cases e with
  | rxByte b => exact takeByte_wf b r hm
  | rxTimeout => exact takeTimeout_wf r hm
  | rxClosed => exact takeClosed_wf r hm

/-! ### Steps and runs -/

/-- Everything a step can do to the receive state: nothing, a reset, or a receive event. -/
theorem step_rx_cases {s t : State} (h : step s = .next t) :
    t.rx = s.rx ∨ t.rx = Receive.clear ∨ ∃ e : RxEvent, t.rx = (receiveStep e s.rx).1 := by
  obtain ⟨-, rfl⟩ | ⟨rest, -, rfl⟩ | ⟨e, rest, i, -, -, hexec⟩ := step_next_cases h
  · exact .inl rfl
  · exact .inr (.inl rfl)
  · obtain ⟨-, rfl⟩ | ⟨e, -, rfl⟩ | ⟨-, -, r, rfl⟩ := exec_next_cases hexec
    · exact .inr (.inl rfl)
    · exact .inr (.inr ⟨e, rfl⟩)
    · exact .inl rfl

section
variable {P : Receive → Prop} (hclear : P Receive.clear)
  (hevent : ∀ (e : RxEvent) (r : Receive), P r → P (receiveStep e r).1)
include hclear hevent

/-- A property of the reset receive state that every receive event keeps is kept by every step. -/
theorem step_keeps_rx {s t : State} (hs : P s.rx) (h : step s = .next t) : P t.rx := by
  obtain hsame | hreset | ⟨e, hrecv⟩ := step_rx_cases h
  · rwa [hsame]
  · rwa [hreset]
  · rw [hrecv]; exact hevent e s.rx hs

/-- A property of the reset receive state that every receive event keeps holds in every reachable state. -/
theorem Reachable.rx_induction {s : State} (hs : Reachable s) : P s.rx := by
  induction hs with
  | boot p inputs => exact hclear
  | step _ h ih => exact step_keeps_rx hclear hevent ih h

end

/-- Settles O6: the receive state right after reset is `Receive.clear`. -/
theorem readerInvAtReset : Obligations.ReaderInvAtReset :=
  fun _ _ => Receive.inv_clear

/-- Settles O7: the reader's transitions keep the rules, and a step that makes none resets the receive
state or leaves it alone. -/
theorem stepKeepsReaderInv : Obligations.StepKeepsReaderInv := by
  intro s t hs h
  exact step_keeps_rx Receive.inv_clear (fun e _ => receiveStep_keeps_inv e) hs h

/-- Settles O8, by the induction over reachable states, for the rules and for the canonical form. -/
theorem reachableReaderInv : Obligations.ReachableReaderInv := by
  intro s hs
  exact ⟨hs.rx_induction Receive.inv_clear fun e _ => receiveStep_keeps_inv e,
    hs.rx_induction (P := fun r => r.rxBuf.wf = true) clear_wf fun e _ => receiveStep_wf e⟩

end Sys2Proof.Machine
end

section
/-! STATUS (R25): its fields, and its value at reset (R34). -/

namespace Sys2Proof.Machine

/-- STATUS mirrors the receive state and `TS_POLICY`, and nothing else (R25). -/
theorem statusWord_congr {s t : State} (hrx : s.rx = t.rx) (hp : s.tsPolicy = t.tsPolicy) :
    statusWord s = statusWord t := by
  simp only [statusWord, hrx, hp]

/-! ### The fields -/

section
variable {v : Nat} (x : BitVec v) (k : Nat)

/-- A value of `v` bits placed at bit `k` of a word is read back there. -/
theorem extractLsb'_placed_same (h : k + v ≤ 32) : (x.setWidth 32 <<< k).extractLsb' k v = x := by
  ext i hi
  simp (disch := omega)

/-- A value of `v` bits placed at bit `k` of a word leaves the bits below and above it 0. -/
theorem extractLsb'_placed_disjoint (j w : Nat) (h : j + w ≤ k ∨ k + v ≤ j) :
    (x.setWidth 32 <<< k).extractLsb' j w = 0#w := by
  ext i hi
  obtain hbelow | habove := h
  · simp (disch := omega) [decide_eq_true]
  · simp (disch := omega) [BitVec.getLsbD_of_ge]

end

/-- STATUS as its five fields, each placed at its lowest bit (R25, R211). -/
theorem statusWord_eq_fields (s : State) : statusWord s =
    s.rx.rxState.code.setWidth 32 <<< 0 ||| s.rx.rxFault.code.setWidth 32 <<< 2
      ||| s.rx.rxLen.setWidth 32 <<< 8 ||| s.rx.rxCnt.setWidth 32 <<< 16
      ||| s.tsPolicy.code.setWidth 32 <<< 24 := by
  simp [statusWord]

/-- R25: what stands at each field of STATUS, where no other field has bits, and 0 at the reserved bits. -/
theorem statusWord_fields (s : State) :
    (statusWord s).extractLsb' 0 2 = s.rx.rxState.code
      ∧ (statusWord s).extractLsb' 2 2 = s.rx.rxFault.code
      ∧ (statusWord s).extractLsb' 4 4 = 0#4
      ∧ (statusWord s).extractLsb' 8 8 = s.rx.rxLen
      ∧ (statusWord s).extractLsb' 16 8 = s.rx.rxCnt
      ∧ (statusWord s).extractLsb' 24 1 = s.tsPolicy.code
      ∧ (statusWord s).extractLsb' 25 7 = 0#7 := by
  simp (disch := omega) only [statusWord_eq_fields, BitVec.extractLsb'_or, extractLsb'_placed_same,
    extractLsb'_placed_disjoint, BitVec.or_zero, BitVec.zero_or, and_self]

/-- Settles O1: reset and RST leave `Receive.clear`, and STATUS mirrors it with `TS_POLICY`. -/
theorem resetValues : Obligations.ResetValues := by
  intro p inputs
  refine ⟨rfl, rfl, rfl, rfl, fun _ => rfl, rfl, ?_, ?_⟩
  · have hboot : statusWord (State.boot p inputs) = statusWord (State.boot p []) :=
      statusWord_congr rfl rfl
    rw [hboot]
    cases p <;> decide
  · intro s t hp h
    cases h
    exact ⟨rfl, hp, statusWord_congr rfl hp⟩

/-- Settles O3, field by field; the bound on `RX_CNT` is that of the receive-state rules. -/
theorem statusWordFields : Obligations.StatusWordFields := by
  intro s
  obtain ⟨hstate, hfault, hlow, hlen, hcnt, hgated, hhigh⟩ := statusWord_fields s
  refine ⟨hstate.trans ?_, hfault.trans ?_, hlow, hlen, hcnt, hgated.trans ?_, hhigh, fun hinv => ?_⟩
  · cases s.rx.rxState <;> rfl
  · cases s.rx.rxFault <;> rfl
  · cases s.tsPolicy <;> rfl
  · rw [hcnt]; exact hinv.rxCnt_le

end Sys2Proof.Machine
end

section
/-! The host's commands and the reader (R27, R47): a command but RST and STAT answers from its operands and
`TS_POLICY` alone, and no command but RST disturbs the receive state or the outputs. -/

namespace Sys2Proof.Machine

/-! ### Results -/

/-- Settles O12, command by command: DECR's record reads `TS_POLICY`, the others' their operands alone. -/
theorem datapathResultFromOperands : Obligations.DatapathResultFromOperands := by
  intro i p hformat hrst hstat
  cases i with
  | rst => exact absurd rfl hrst
  | stat => exact absurd rfl hstat
  | decr raw =>
    refine ⟨Result.ofExcept Result.ofReply (decodeReply p raw), fun s hs => ?_⟩
    subst hs
    rfl
  | ptyp | penc | pdec | csum | encr | encw | illegal => exact ⟨_, fun _ _ => rfl⟩
  | _ => cases hformat

/-- An instruction that is neither RST nor a receive event returns one result record, from every state. -/
theorem exec_respond {i : Instr} (hrst : i ≠ .rst) (hformat : i.format ≠ .receiveEvent) (s : State) :
    ∃ r : Result, exec i s = .next (s.respond r) := by
  cases i with
  | rst => exact absurd rfl hrst
  | rxByte | rxTimeout | rxClosed | rxReserved => exact absurd rfl hformat
  | _ => exact ⟨_, rfl⟩

/-! ### Commands other than RST -/

/-- A legal command is RST, whose one byte string is `08`, or another row of the command port (R81). -/
theorem parseCommand_cases (c : List Byte) :
    ∀ i ∈ parseCommand c, (c = [0x08] ∧ i = .rst) ∨ (i ≠ .rst ∧ i.format = .command) := by
  fun_cases parseCommand c
  case case16 => simp
  all_goals simp [Instr.format]

theorem decodeCommand_of_ne_rst {c : List Byte} (hc : c ≠ [0x08]) :
    decodeCommand c ≠ .rst ∧ (decodeCommand c).format = .command := by
  unfold decodeCommand
  split
  case h_1 i hi => exact (parseCommand_cases c i hi).resolve_left fun h => hc h.1
  case h_2 => exact ⟨nofun, rfl⟩

/-- A stimulus that is a quiet command is an item the decoder reads as a row of the command port, not RST. -/
theorem Stimulus.isQuietCommand_item {e : Encoded} {i : Instr}
    (hq : (Stimulus.item e).isQuietCommand = true) (hd : decode e = .ok i) :
    i ≠ .rst ∧ i.format = .command := by
  cases e with
  | command c =>
    cases hd
    exact decodeCommand_of_ne_rst (by simpa [Stimulus.isQuietCommand] using hq)
  | _ => cases hq

/-! ### What the reader shows -/

/-- Two states with the same receive state, outputs and `TS_POLICY`. The stimuli to come and the results
returned may differ: no receive event reads them. -/
structure SameReader (s u : State) : Prop where
  rx : u.rx = s.rx
  outputs : u.outputs = s.outputs
  tsPolicy : u.tsPolicy = s.tsPolicy

theorem SameReader.trans {s u v : State} (h : SameReader s u) (h' : SameReader u v) : SameReader s v :=
  ⟨h'.rx.trans h.rx, h'.outputs.trans h.outputs, h'.tsPolicy.trans h.tsPolicy⟩

theorem SameReader.symm {s u : State} (h : SameReader s u) : SameReader u s :=
  ⟨h.rx.symm, h.outputs.symm, h.tsPolicy.symm⟩

/-- From two states the reader does not tell apart, an instruction leads to two such states. -/
theorem exec_sameReader {i : Instr} {s u s' : State} (hsu : SameReader s u) (h : exec i s = .next s') :
    ∃ u', exec i u = .next u' ∧ u'.pending = u.pending ∧ SameReader s' u' := by
  obtain ⟨hrx, hout, hp⟩ := hsu
  obtain ⟨rfl, rfl⟩ | ⟨e, rfl, rfl⟩ | ⟨hrst, hformat, r, rfl⟩ := exec_next_cases h
  · exact ⟨_, rfl, rfl, rfl, hout, hp⟩
  · exact ⟨_, exec_rxEvent e u, rfl, by simp only [sourceStep, State.receive_rx, hrx],
      by simp only [sourceStep, State.receive_outputs, hrx, hout], hp⟩
  · obtain ⟨r', hr'⟩ := exec_respond hrst hformat u
    exact ⟨_, hr', rfl, hrx, hout, hp⟩

theorem exec_keeps_pending {i : Instr} {s t : State} (h : exec i s = .next t) : t.pending = s.pending := by
  obtain ⟨-, rfl⟩ | ⟨e, -, rfl⟩ | ⟨-, -, r, rfl⟩ := exec_next_cases h <;> rfl

/-! ### Steps -/

theorem step_reset {s : State} {rest : List Stimulus} (hs : s.pending = .reset :: rest) :
    step s = .next { s with pending := rest, rx := Receive.clear } := by
  simp only [step, State.fetch_cons hs, State.clearReceive]

theorem step_item {s : State} {e : Encoded} {rest : List Stimulus} {i : Instr}
    (hs : s.pending = .item e :: rest) (hd : decode e = .ok i) :
    step s = exec i { s with pending := rest } := by
  simp only [step, State.fetch_cons hs, runItem, hd]

section
variable {s s' : State} {x : Stimulus} {rest : List Stimulus}
  (hs : s.pending = x :: rest) (h : step s = .next s')
include hs h

/-- What a step did that had a stimulus to take: it reset the block or performed the item. -/
theorem step_cons_cases :
    (x = .reset ∧ s' = { s with pending := rest, rx := Receive.clear })
      ∨ ∃ e i, x = .item e ∧ decode e = .ok i ∧ exec i { s with pending := rest } = .next s' := by
  obtain ⟨hnil, -⟩ | ⟨_, hcons, rfl⟩ | ⟨e, _, i, hcons, hd, hexec⟩ := step_next_cases h
  · cases hs.symm.trans hnil
  · cases hs.symm.trans hcons
    exact .inl ⟨rfl, rfl⟩
  · cases hs.symm.trans hcons
    exact .inr ⟨e, i, rfl, hd, hexec⟩

theorem step_takes_stimulus : s'.pending = rest := by
  obtain ⟨-, rfl⟩ | ⟨e, i, -, -, hexec⟩ := step_cons_cases hs h
  · rfl
  · exact exec_keeps_pending hexec

/-- A quiet command returns a result, which the reader does not see (R27). -/
theorem step_quiet_sameReader (hq : x.isQuietCommand = true) : SameReader s s' := by
  obtain ⟨rfl, -⟩ | ⟨e, i, rfl, hd, hexec⟩ := step_cons_cases hs h
  · cases hq
  · obtain ⟨hrst, hformat⟩ := Stimulus.isQuietCommand_item hq hd
    obtain ⟨r, hr⟩ := exec_respond hrst (by simp [hformat]) { s with pending := rest }
    cases hr.symm.trans hexec
    exact ⟨rfl, rfl, rfl⟩

/-- From two states the reader does not tell apart, one stimulus leads to two such states. -/
theorem step_sameReader {u : State} {rest' : List Stimulus} (hu : u.pending = x :: rest')
    (hsu : SameReader s u) : ∃ u', step u = .next u' ∧ u'.pending = rest' ∧ SameReader s' u' := by
  obtain ⟨rfl, rfl⟩ | ⟨e, i, rfl, hd, hexec⟩ := step_cons_cases hs h
  · exact ⟨_, step_reset hu, rfl, rfl, hsu.outputs, hsu.tsPolicy⟩
  · have htaken : SameReader { s with pending := rest } { u with pending := rest' } :=
      ⟨hsu.rx, hsu.outputs, hsu.tsPolicy⟩
    rw [step_item hu hd]
    exact exec_sameReader htaken hexec

end

/-! ### Runs -/

theorem runSteps_succ_next {k : Nat} {s t : State} :
    runSteps (k + 1) s = .next t ↔ ∃ s', step s = .next s' ∧ runSteps k s' = .next t := by
  cases hs : step s <;> simp [runSteps, hs]

/-- A run over stimuli, and the run over those of them that are no quiet commands, from two states the reader
does not tell apart, end in two such states. -/
theorem run_filter_sameReader (l : List Stimulus) {s u t : State} (hs : s.pending = l)
    (hu : u.pending = l.filter fun x => !x.isQuietCommand) (hsu : SameReader s u)
    (h : runSteps l.length s = .next t) :
    ∃ v, runSteps (l.filter fun x => !x.isQuietCommand).length u = .next v ∧ SameReader t v := by
  induction l generalizing s u with
  | nil =>
    cases h
    exact ⟨u, rfl, hsu⟩
  | cons x l ih =>
    obtain ⟨s', hstep, hrun⟩ := runSteps_succ_next.1 h
    have hs' : s'.pending = l := step_takes_stimulus hs hstep
    cases hq : x.isQuietCommand with
    | true =>
      have hskip : (x :: l).filter (fun x => !x.isQuietCommand) = l.filter fun x => !x.isQuietCommand :=
        List.filter_cons_of_neg (by simp [hq])
      rw [hskip] at hu ⊢
      exact ih hs' hu ((step_quiet_sameReader hs hstep hq).symm.trans hsu) hrun
    | false =>
      have hkeep : (x :: l).filter (fun x => !x.isQuietCommand)
          = x :: l.filter fun x => !x.isQuietCommand := List.filter_cons_of_pos (by simp [hq])
      rw [hkeep] at hu ⊢
      obtain ⟨u', hustep, hu', hsu'⟩ := step_sameReader hs hstep hu hsu
      obtain ⟨v, hv, htv⟩ := ih hs' hu' hsu' hrun
      exact ⟨v, runSteps_succ_next.2 ⟨u', hustep, hv⟩, htv⟩

/-- Settles O27: the two runs begin in states that differ in the stimuli to come alone. -/
theorem commandsInvisibleToReader : Obligations.CommandsInvisibleToReader := by
  intro l s t _ h
  obtain ⟨v, hv, hrx, hout, hp⟩ :=
    run_filter_sameReader l (s := { s with pending := l })
      (u := { s with pending := l.filter fun x => !x.isQuietCommand }) rfl rfl ⟨rfl, rfl, rfl⟩ h
  exact ⟨v, hv, hrx, hout, hp⟩

end Sys2Proof.Machine
end

section
/-! Repeated commands (R49): a command other than RST reads its operands, the receive state and `TS_POLICY`
at most, and changes none of them, so it answers again what it answered before. -/

namespace Sys2Proof.Machine

/-- The record of a command other than RST is one for all states with the same receive state and `TS_POLICY`
(R27, R211). -/
theorem exec_command_result {i : Instr} (hformat : i.format = .command) (hrst : i ≠ .rst) (s : State) :
    ∃ r : Result, ∀ u : State, u.rx = s.rx → u.tsPolicy = s.tsPolicy → exec i u = .next (u.respond r) := by
  by_cases hstat : i = .stat
  · subst hstat
    refine ⟨Result.ofWord (statusWord s), fun u hrx hp => ?_⟩
    rw [← statusWord_congr hrx hp]
    rfl
  · obtain ⟨r, hr⟩ := datapathResultFromOperands i s.tsPolicy hformat hrst hstat
    exact ⟨r, fun u _ hp => hr u hp⟩

/-- Settles O13: the first command leaves the receive state and `TS_POLICY` that fix its record; RST
leaves `Receive.clear` each time. -/
theorem repeatedCommands : Obligations.RepeatedCommands := by
  intro i s t u ht hu
  constructor
  · intro hformat hrst
    obtain ⟨r, hr⟩ := exec_command_result hformat hrst s
    have hfirst : exec i s = .next (s.respond r) := hr s rfl rfl
    cases hfirst.symm.trans ht
    have hsecond : exec i (s.respond r) = .next ((s.respond r).respond r) := hr (s.respond r) rfl rfl
    cases hsecond.symm.trans hu
    exact ⟨r, rfl, rfl, rfl, rfl, rfl⟩
  · rintro rfl
    cases ht
    cases hu
    exact ⟨rfl, rfl, rfl⟩

end Sys2Proof.Machine
end

section
/-! One step (R47, R322, R341): the equations of `step` for an item the decoder refuses and for no pending
stimulus, beside `step_item` and `step_reset`. -/

namespace Sys2Proof.Machine

theorem step_undecodable {s : State} {e : Encoded} {rest : List Stimulus} {why : DecodeError}
    (hs : s.pending = .item e :: rest) (hd : decode e = .error why) :
    step s = .refused (.undecodable why) := by
  simp only [step, State.fetch_cons hs, runItem, hd]

theorem step_nil {s : State} (hs : s.pending = []) : step s = .next s := by
  simp only [step, State.fetch_nil hs]

/-- Settles O57, by the equations of `step`. -/
theorem stepRunsDecodedItem : Obligations.StepRunsDecodedItem := by
  intro s e rest
  exact ⟨fun hs => ⟨fun _ hd => step_item hs hd, fun _ hd => step_undecodable hs hd⟩, step_nil⟩

end Sys2Proof.Machine
end

section
/-! Lanes (R83): a lane and its value determine each other, one lane and a list of them. -/

namespace Sys2Proof

/-! ### One lane -/

/-- The nine bytes of a lane. -/
theorem encodeLane_eq_nine (v : PVal) :
    ∃ k b0 b1 b2 b3 b4 b5 b6 b7, encodeLane v = [k, b0, b1, b2, b3, b4, b5, b6, b7] := by
  cases v with
  | int n => by_cases h : 0 ≤ n <;> simp [encodeLane, h, leBytes]
  | f32 bits => simp [encodeLane, leBytes]

section
variable {k b0 b1 b2 b3 b4 b5 b6 b7 : Byte} {v : PVal}

/-- R83: what a lane decodes to is in `LANE_RANGE` and is encoded as the lane. -/
theorem encodeLane_of_decodeLane (h : decodeLane k b0 b1 b2 b3 b4 b5 b6 b7 = some v) :
    v.wf = true ∧ encodeLane v = [k, b0, b1, b2, b3, b4, b5, b6, b7] := by
  have hlt : le [b0, b1, b2, b3, b4, b5, b6, b7] < 256 ^ 8 := le_lt [b0, b1, b2, b3, b4, b5, b6, b7]
  have hbytes : leBytes 8 (le [b0, b1, b2, b3, b4, b5, b6, b7]) = [b0, b1, b2, b3, b4, b5, b6, b7] :=
    leBytes_le' rfl
  unfold decodeLane at h
  generalize le [b0, b1, b2, b3, b4, b5, b6, b7] = n at hlt hbytes h
  norm_num at hlt
  split at h
  case isTrue hk =>
    cases h
    refine ⟨?_, by simp [encodeLane, hbytes, hk]⟩
    simp [PVal.wf, Config.laneMin, Config.laneMax]; omega
  case isFalse =>
  split at h
  case isTrue hk =>
    cases h
    have hneg : ¬ (0 : Int) ≤ n - 2 ^ 64 := by omega
    refine ⟨?_, by simp only [encodeLane, if_neg hneg, hk, Int.sub_add_cancel, Int.toNat_natCast, hbytes]⟩
    simp [PVal.wf, Config.laneMin, Config.laneMax]; omega
  case isFalse =>
  split_ifs at h with hk hhigh
  cases h
  obtain ⟨rfl, rfl, rfl, rfl⟩ := hhigh
  have hlow : le [b0, b1, b2, b3] < 256 ^ 4 := le_lt [b0, b1, b2, b3]
  norm_num at hlow
  refine ⟨rfl, ?_⟩
  rw [encodeLane, hk, BitVec.toNat_ofNat, Nat.mod_eq_of_lt (by norm_num; exact hlow),
    leBytes_le' (k := 4) (bs := [b0, b1, b2, b3]) rfl]
  rfl

/-- R83: the lane of a value in `LANE_RANGE` decodes to the value. -/
theorem decodeLane_encodeLane (hwf : v.wf = true)
    (h : encodeLane v = [k, b0, b1, b2, b3, b4, b5, b6, b7]) :
    decodeLane k b0 b1 b2 b3 b4 b5 b6 b7 = some v := by
  cases v with
  | int n =>
    simp only [PVal.wf, Config.laneMin, Config.laneMax, Bool.and_eq_true, decide_eq_true_eq] at hwf
    by_cases hn : 0 ≤ n
    · rw [encodeLane, if_pos hn] at h
      obtain ⟨rfl, hbytes⟩ := List.cons.inj h
      have hle : le (leBytes 8 n.toNat) = n.toNat := le_leBytes (by norm_num; omega)
      rw [decodeLane, if_pos rfl, ← hbytes, hle, Int.toNat_of_nonneg hn]
    · rw [encodeLane, if_neg hn] at h
      obtain ⟨rfl, hbytes⟩ := List.cons.inj h
      have hle : le (leBytes 8 (n + 2 ^ 64).toNat) = (n + 2 ^ 64).toNat :=
        le_leBytes (by norm_num; omega)
      rw [decodeLane, if_neg (by decide), if_pos rfl, ← hbytes, hle,
        Int.toNat_of_nonneg (by omega), Int.add_sub_cancel]
  | f32 bits =>
    obtain ⟨rfl, hbytes⟩ := List.cons.inj h
    obtain ⟨hlow, hhigh⟩ := List.append_inj (s₂ := [b0, b1, b2, b3]) hbytes (by simp)
    cases hhigh
    have hle : le (leBytes 4 bits.toNat) = bits.toNat := le_leBytes bits.isLt
    rw [decodeLane, if_neg (by decide), if_neg (by decide), if_pos rfl, if_pos ⟨rfl, rfl, rfl, rfl⟩,
      ← hlow, hle, BitVec.ofNat_toNat, BitVec.setWidth_eq]

/-- R83: a lane is malformed exactly where it has no value. -/
theorem decodeLane_eq_none_iff :
    decodeLane k b0 b1 b2 b3 b4 b5 b6 b7 = none
      ↔ laneMalformed [k, b0, b1, b2, b3, b4, b5, b6, b7] = true := by
  unfold decodeLane laneMalformed
  by_cases h0 : k = 0x00
  · simp [h0]
  by_cases h1 : k = 0x01
  · simp [h1]
  by_cases h2 : k = 0x02
  · simp [h2, byteAt]; tauto
  · simp_all [byteAt]

end

/-! ### Lists of lanes -/

/-- One more lane in front is one more value in front. -/
theorem decodeLanes_encodeLane_append {v : PVal} (hwf : v.wf = true) (n : Nat) (rest : List Byte) :
    decodeLanes (n + 1) (encodeLane v ++ rest) = (decodeLanes n rest).map (v :: ·) := by
  obtain ⟨k, b0, b1, b2, b3, b4, b5, b6, b7, hlane⟩ := encodeLane_eq_nine v
  simp only [hlane, List.cons_append, List.nil_append, decodeLanes, decodeLane_encodeLane hwf hlane]
  cases decodeLanes n rest <;> rfl

/-- R81, R83: the bytes that are the lanes of a list of values are those the encoder writes. -/
theorem decodeLanes_eq_some_iff {n : Nat} {l : List Byte} {vs : List PVal} :
    decodeLanes n l = some vs ↔ vs.length = n ∧ vs.all PVal.wf = true ∧ vs.flatMap encodeLane = l := by
  constructor
  · intro h
    fun_induction decodeLanes n l generalizing vs with
    | case1 => cases h; exact ⟨rfl, rfl, rfl⟩
    | case5 n k b0 b1 b2 b3 b4 b5 b6 b7 rest v hv ws hws ih =>
      cases h
      obtain ⟨hlen, hwfs, hrest⟩ := ih hws
      obtain ⟨hwf, hlane⟩ := encodeLane_of_decodeLane hv
      exact ⟨by simp [hlen], by simp [hwf, hwfs], by simp [hlane, hrest]⟩
    | _ => cases h
  · rintro ⟨rfl, hwf, rfl⟩
    induction vs with
    | nil => rfl
    | cons v vs ih =>
      simp only [List.all_cons, Bool.and_eq_true] at hwf
      rw [List.flatMap_cons, List.length_cons, decodeLanes_encodeLane_append hwf.1, ih hwf.2]
      rfl

/-- A malformed lane is the first one or one of the others. -/
theorem exists_laneMalformed_cons (n : Nat) (k b0 b1 b2 b3 b4 b5 b6 b7 : Byte) (rest : List Byte) :
    (∃ j < n + 1,
        laneMalformed (slice (k :: b0 :: b1 :: b2 :: b3 :: b4 :: b5 :: b6 :: b7 :: rest) (9 * j) 9) = true)
      ↔ laneMalformed [k, b0, b1, b2, b3, b4, b5, b6, b7] = true
        ∨ ∃ j < n, laneMalformed (slice rest (9 * j) 9) = true := by
  simp only [Nat.exists_lt_succ_left, Nat.mul_succ]
  rfl

/-- R81, R83: bytes are no lanes where they are not 9 to a lane, or where one lane is malformed. -/
theorem decodeLanes_eq_none_iff {n : Nat} {l : List Byte} :
    decodeLanes n l = none
      ↔ l.length ≠ 9 * n ∨ ∃ j < n, laneMalformed (slice l (9 * j) 9) = true := by
  fun_induction decodeLanes n l with
  | case1 => simp
  | case2 => simp
  | case3 n k b0 b1 b2 b3 b4 b5 b6 b7 rest hv =>
    rw [exists_laneMalformed_cons]
    simp [decodeLane_eq_none_iff.1 hv]
  | case4 n k b0 b1 b2 b3 b4 b5 b6 b7 rest v hv hws ih =>
    rw [exists_laneMalformed_cons]
    obtain hlen | hlane := ih.1 hws
    · exact iff_of_true rfl (.inl (by simp only [List.length_cons]; omega))
    · exact iff_of_true rfl (.inr (.inr hlane))
  | case5 n k b0 b1 b2 b3 b4 b5 b6 b7 rest v hv ws hws ih =>
    have hlane : ¬ laneMalformed [k, b0, b1, b2, b3, b4, b5, b6, b7] = true :=
      mt decodeLane_eq_none_iff.2 (by simp [hv])
    have hrest := mt ih.2 (by simp [hws])
    rw [exists_laneMalformed_cons]
    refine iff_of_false nofun ?_
    rintro (hlen | hhead | htail)
    · exact hrest (.inl (by simp only [List.length_cons] at hlen; omega))
    · exact hlane hhead
    · exact hrest (.inr htail)
  | case6 n l hshort =>
    have hlen : l.length ≠ 9 * (n + 1) := by
      intro h
      match l, h with
      | k :: b0 :: b1 :: b2 :: b3 :: b4 :: b5 :: b6 :: b7 :: rest, _ => exact hshort _ _ _ _ _ _ _ _ _ _ rfl
    simp [hlen]

end Sys2Proof

namespace Sys2Proof.Machine

/-- Settles O51: one lane is a list of lanes of length 1. -/
theorem laneEncodingUnique : Obligations.LaneEncodingUnique := by
  intro v
  have hlane (l : List Byte) : decodeLanes 1 l = some [v] ↔ v.wf = true ∧ encodeLane v = l := by
    simp [decodeLanes_eq_some_iff]
  refine ⟨fun hwf l => ?_, fun hwf l => ?_⟩
  · simp [hlane, hwf, eq_comm]
  · simp [hlane, hwf]

end Sys2Proof.Machine
end

section
/-! Commands (R80 to R82, R85): the byte string of a legal command is the one the encoder writes for it, and
a byte string is no legal command exactly in the cases of R82. -/

namespace Sys2Proof

/-! ### Operands behind a count (R81) -/

theorem lanes_of_decodeLanes {n : Byte} {lanes : List Byte} {vs : List PVal}
    (h : decodeLanes n.toNat lanes = some vs) : valuesWf vs = true ∧ encodeLanes vs = n :: lanes := by
  obtain ⟨hlen, hwf, rfl⟩ := decodeLanes_eq_some_iff.1 h
  have hn : n.toNat < 256 := n.isLt
  refine ⟨?_, by simp [encodeLanes, hlen]⟩
  simp only [valuesWf, hwf, Config.nvalMax, Bool.and_true, decide_eq_true_eq]
  omega

theorem decodeLanes_of_valuesWf {vs : List PVal} (h : valuesWf vs = true) :
    decodeLanes (BitVec.ofNat 8 vs.length).toNat (vs.flatMap encodeLane) = some vs := by
  simp only [valuesWf, Config.nvalMax, Bool.and_eq_true, decide_eq_true_eq] at h
  obtain ⟨hlen, hwf⟩ := h
  refine decodeLanes_eq_some_iff.2 ⟨?_, hwf, rfl⟩
  rw [BitVec.toNat_ofNat, Nat.mod_eq_of_lt (by omega)]

theorem decodeCounted_of_length_le {limit : Nat} {bs : List Byte} (h : bs.length ≤ limit)
    (hlimit : limit < 256 ^ 2) :
    decodeCounted limit (BitVec.ofNat 8 bs.length) (BitVec.ofNat 8 (bs.length / 256)) bs = some bs := by
  have hle : le (encodeCount bs.length) = bs.length := le_leBytes (by omega)
  have hcount : le [BitVec.ofNat 8 bs.length, BitVec.ofNat 8 (bs.length / 256)] = bs.length := hle
  rw [decodeCounted, hcount, if_pos ⟨h, rfl⟩]

theorem decodeCounted_eq_none_iff {limit : Nat} {nL nH : Byte} {bs : List Byte} :
    decodeCounted limit nL nH bs = none ↔ bs.length ≠ le [nL, nH] ∨ limit < le [nL, nH] := by
  unfold decodeCounted
  split_ifs with h <;> simp <;> omega

/-! ### Legal commands -/

/-- A byte string that is a legal command is the encoding of it, and the command is within its limits. -/
theorem parseCommand_some {c : List Byte} {i : Instr} (h : parseCommand c = some i) :
    i.wf = true ∧ encode i = .command c := by
  revert h
  fun_cases parseCommand c
  all_goals intro h
  -- PTYP, ENCR, RST and STAT have operands of fixed length
  case case2 | case10 | case16 | case18 => cases h; exact ⟨rfl, rfl⟩
  -- PENC and ENCW carry lanes
  case case4 | case12 =>
    obtain ⟨vs, hvs, rfl⟩ := Option.map_eq_some_iff.1 h
    obtain ⟨hwf, hlanes⟩ := lanes_of_decodeLanes hvs
    exact ⟨hwf, by rw [encode, hlanes]⟩
  -- PDEC, CSUM and DECR carry counted bytes
  case case6 | case8 | case14 =>
    obtain ⟨xs, hxs, rfl⟩ := Option.map_eq_some_iff.1 h
    obtain ⟨rfl, hlen, hcount⟩ := decodeCounted_some hxs
    exact ⟨by simpa only [Instr.wf, decide_eq_true_eq] using hlen, by rw [encode, hcount]; rfl⟩
  all_goals cases h

/-- The words of a legal command that is within its limits are read back as it. -/
theorem parseCommand_of_encode {i : Instr} {c : List Byte} (hlegal : ∀ c, i ≠ .illegal c)
    (hwf : i.wf = true) (hc : encode i = .command c) : parseCommand c = some i := by
  cases i with
  | illegal c => exact absurd rfl (hlegal c)
  | ptyp | encr | rst | stat => cases hc; rfl
  | penc d vs =>
    cases hc
    exact congrArg (Option.map (Instr.penc d)) (decodeLanes_of_valuesWf hwf)
  | encw a p d vs =>
    cases hc
    exact congrArg (Option.map (Instr.encw a p d)) (decodeLanes_of_valuesWf hwf)
  | pdec d bs =>
    cases hc
    exact congrArg (Option.map (Instr.pdec d))
      (decodeCounted_of_length_le (of_decide_eq_true hwf) (by decide))
  | csum bs =>
    cases hc
    exact congrArg (Option.map Instr.csum)
      (decodeCounted_of_length_le (of_decide_eq_true hwf) (by decide))
  | decr raw =>
    cases hc
    exact congrArg (Option.map Instr.decr)
      (decodeCounted_of_length_le (of_decide_eq_true hwf) (by decide))
  | _ => cases hc

/-! ### Illegal commands (R82) -/

/-- R82 of a command that has an op byte: its five cases. -/
theorem illegalCommand_cons_iff {op : Byte} {args : List Byte} :
    illegalCommand (op :: args) = true
      ↔ illegalHigh [op] = true ∨ illegalOp [op] = true
        ∨ args.length + 1 ≠ commandLength (op :: args)
        ∨ byteLimit (op :: args) < byteCount (op :: args)
        ∨ ∃ j < laneCount (op :: args),
            laneMalformed (slice (op :: args) (laneStart (op :: args) + 9 * j) 9) = true := by
  have hhigh : illegalHigh (op :: args) = illegalHigh [op] := rfl
  have hop : illegalOp (op :: args) = illegalOp [op] := rfl
  simp [illegalCommand, hhigh, hop, illegalLength, illegalCount, illegalLane, or_assoc]

theorem illegalHigh_iff (op : Byte) : illegalHigh [op] = true ↔ op.toNat / 16 ≠ 0 := by
  revert op; decide

theorem illegalOp_iff (op : Byte) :
    illegalOp [op] = true ↔ op.toNat % 16 = 0 ∨ 0xA ≤ op.toNat % 16 := by
  revert op; decide

theorem illegalCommand_of_length {op : Byte} {args : List Byte}
    (h : args.length + 1 ≠ commandLength (op :: args)) : illegalCommand (op :: args) = true :=
  illegalCommand_cons_iff.2 (.inr (.inr (.inl h)))

theorem illegalCommand_of_op {op : Byte} (args : List Byte)
    (h : op ∉ ([0x01, 0x02, 0x03, 0x04, 0x05, 0x06, 0x07, 0x08, 0x09] : List Byte)) :
    illegalCommand (op :: args) = true := by
  have hop : illegalHigh [op] = true ∨ illegalOp [op] = true := by revert op; decide
  exact illegalCommand_cons_iff.2 (hop.imp id .inl)

theorem slice_append_add (xs ys : List Byte) (i n : Nat) :
    slice (xs ++ ys) (xs.length + i) n = slice ys i n := by
  simp [slice]

theorem length_lt_two {bs : List Byte} (h : ∀ a b l, bs = a :: b :: l → False) : bs.length < 2 := by
  match bs, h with
  | [], _ | [_], _ => simp
  | a :: b :: l, h => exact (h a b l rfl).elim

section
variable {op : Byte} {args pre rest : List Byte}
  (hhigh : illegalHigh [op] = false) (hop : illegalOp [op] = false)
include hhigh hop

/-- R82 (c): a command without a count is legal at its own length. -/
theorem illegalCommand_fixed_iff (hcount : byteCount (op :: args) = 0)
    (hlanes : laneCount (op :: args) = 0) :
    illegalCommand (op :: args) = true ↔ args.length + 1 ≠ commandLength (op :: args) := by
  rw [illegalCommand_cons_iff]
  simp [hhigh, hop, hcount, hlanes]

variable (hargs : op :: args = pre ++ rest)
include hargs

/-- R82 (c), (e): a command of lanes is legal where its bytes after the value count are lanes. -/
theorem illegalCommand_lanes_iff
    (hlen : commandLength (op :: args) = pre.length + 9 * laneCount (op :: args))
    (hstart : laneStart (op :: args) = pre.length) (hcount : byteCount (op :: args) = 0) :
    decodeLanes (laneCount (op :: args)) rest = none ↔ illegalCommand (op :: args) = true := by
  have hlength : args.length + 1 = pre.length + rest.length := by
    simpa using congrArg List.length hargs
  have hlanes (j : Nat) : slice (op :: args) (pre.length + 9 * j) 9 = slice rest (9 * j) 9 := by
    rw [hargs, slice_append_add]
  rw [illegalCommand_cons_iff, decodeLanes_eq_none_iff]
  simp [hhigh, hop, hlen, hstart, hcount, hlength, hlanes]

/-- R82 (c), (d): a command of counted bytes is legal where its bytes after the count are that many and
within the limit. -/
theorem illegalCommand_counted_iff {nL nH : Byte}
    (hlen : commandLength (op :: args) = pre.length + byteCount (op :: args))
    (hcount : byteCount (op :: args) = le [nL, nH]) (hlanes : laneCount (op :: args) = 0) :
    decodeCounted (byteLimit (op :: args)) nL nH rest = none ↔ illegalCommand (op :: args) = true := by
  have hlength : args.length + 1 = pre.length + rest.length := by
    simpa using congrArg List.length hargs
  rw [illegalCommand_cons_iff, decodeCounted_eq_none_iff]
  simp [hhigh, hop, hlen, hcount, hlanes, hlength]

end

/-- R82, R85: a byte string is no legal command exactly where R82 says that it is illegal. -/
theorem parseCommand_eq_none_iff {c : List Byte} :
    parseCommand c = none ↔ illegalCommand c = true := by
  fun_cases parseCommand c
  case case1 => exact iff_of_true rfl rfl
  -- PTYP, ENCR, RST and STAT have operands of fixed length
  case case2 | case10 | case16 | case18 =>
    refine iff_of_false nofun ?_
    rw [illegalCommand_fixed_iff rfl rfl rfl rfl]
    exact not_not_intro rfl
  -- PENC and ENCW carry lanes
  case case4 d n lanes _ =>
    rw [Option.map_eq_none_iff]
    exact illegalCommand_lanes_iff (args := d :: n :: lanes) (pre := [0x02, d, n]) rfl rfl rfl rfl rfl rfl
  case case12 a p d n lanes _ _ _ _ _ =>
    rw [Option.map_eq_none_iff]
    exact illegalCommand_lanes_iff (args := a :: p :: d :: n :: lanes) (pre := [0x06, a, p, d, n])
      rfl rfl rfl rfl rfl rfl
  -- PDEC, CSUM and DECR carry counted bytes
  case case6 d nL nH bs _ _ =>
    rw [Option.map_eq_none_iff]
    exact illegalCommand_counted_iff (args := d :: nL :: nH :: bs) (pre := [0x03, d, nL, nH])
      rfl rfl rfl rfl rfl rfl
  case case8 nL nH bs _ _ _ =>
    rw [Option.map_eq_none_iff]
    exact illegalCommand_counted_iff (args := nL :: nH :: bs) (pre := [0x04, nL, nH])
      rfl rfl rfl rfl rfl rfl
  case case14 nL nH bs _ _ _ _ _ _ =>
    rw [Option.map_eq_none_iff]
    exact illegalCommand_counted_iff (args := nL :: nH :: bs) (pre := [0x07, nL, nH])
      rfl rfl rfl rfl rfl rfl
  case case20 => exact iff_of_true rfl (illegalCommand_of_op _ (by simp_all))
  -- otherwise there are too few bytes, or too many
  all_goals refine iff_of_true rfl (illegalCommand_of_length ?_)
  case case3 args h =>
    change args.length + 1 ≠ 2
    intro hlen
    obtain ⟨d, rfl⟩ := List.length_eq_one_iff.1 (Nat.succ.inj hlen)
    exact h d rfl
  case case11 args h _ _ _ _ =>
    change args.length + 1 ≠ 4
    intro hlen
    obtain ⟨a, p, d, rfl⟩ := List.length_eq_three.1 (Nat.succ.inj hlen)
    exact h a p d rfl
  case case17 | case19 => simpa [commandLength] using ‹_›
  case case5 args h _ =>
    change args.length + 1 ≠ 3 + 9 * laneCount (0x02 :: args)
    have := length_lt_two h
    omega
  case case7 args h _ _ =>
    change args.length + 1 ≠ 4 + byteCount (0x03 :: args)
    have hshort : args.length < 3 := by
      match args, h with
      | [], _ | [_], _ | [_, _], _ => simp
      | d :: nL :: nH :: bs, h => exact (h d nL nH bs rfl).elim
    omega
  case case9 args h _ _ _ =>
    change args.length + 1 ≠ 3 + byteCount (0x04 :: args)
    have := length_lt_two h
    omega
  case case13 args h _ _ _ _ _ =>
    change args.length + 1 ≠ 5 + 9 * laneCount (0x06 :: args)
    have hshort : args.length < 4 := by
      match args, h with
      | [], _ | [_], _ | [_, _], _ | [_, _, _], _ => simp
      | a :: p :: d :: n :: lanes, h => exact (h a p d n lanes rfl).elim
    omega
  case case15 args h _ _ _ _ _ _ =>
    change args.length + 1 ≠ 3 + byteCount (0x07 :: args)
    have := length_lt_two h
    omega

/-! ### The decoder of commands (R85) -/

theorem decodeCommand_wf (c : List Byte) : (decodeCommand c).wf = true := by
  unfold decodeCommand
  split
  case h_1 i hi => exact (parseCommand_some hi).1
  case h_2 hnone => exact parseCommand_eq_none_iff.1 hnone

/-- R85: no byte of a command is lost in decoding it. -/
theorem encode_decodeCommand (c : List Byte) : encode (decodeCommand c) = .command c := by
  unfold decodeCommand
  split
  case h_1 i hi => exact (parseCommand_some hi).2
  case h_2 => rfl

/-- R81, R82: an instruction within its limits whose words are a command is what that command decodes to. -/
theorem decodeCommand_of_encode {i : Instr} {c : List Byte} (hwf : i.wf = true)
    (hc : encode i = .command c) : decodeCommand c = i := by
  by_cases hlegal : ∀ c, i ≠ .illegal c
  · rw [decodeCommand, parseCommand_of_encode hlegal hwf hc]
  · obtain ⟨c', rfl⟩ : ∃ c', i = .illegal c' := by simpa using hlegal
    cases hc
    rw [decodeCommand, parseCommand_eq_none_iff.2 hwf]

theorem decodeCommand_eq_illegal_iff {c : List Byte} :
    decodeCommand c = .illegal c ↔ illegalCommand c = true :=
  ⟨fun h => (congrArg Instr.wf h).symm.trans (decodeCommand_wf c), fun h => decodeCommand_of_encode h rfl⟩

end Sys2Proof

namespace Sys2Proof.Machine

/-- Settles O53, by the bytes of a legal command; an illegal one is its own bytes. -/
theorem encodeOfDecodedCommand : Obligations.EncodeOfDecodedCommand := encode_decodeCommand

/-- Settles O50: the five cases of R82 are those of `illegalCommand`. -/
theorem illegalCommandResult : Obligations.IllegalCommandResult := by
  intro c s
  refine ⟨fun hc => ?_, rfl⟩
  obtain ⟨op, args, rfl⟩ := List.exists_cons_of_ne_nil hc
  simp only [decode, Except.ok.injEq, decodeCommand_eq_illegal_iff, illegalCommand_cons_iff,
    illegalHigh_iff, illegalOp_iff, byteAt_cons_zero, List.length_cons]

end Sys2Proof.Machine
end

section
/-! Elements and payloads (R75, R103 to R107): an element and its value determine each other, and so do a
payload and its values; the element's bytes are those R40 and R103 describe. -/

namespace Sys2Proof

/-! ### The signed and the unsigned reading of an element's bytes (R10) -/

theorem le_lt_two_pow {k : Nat} {bs : List Byte} (h : bs.length = k) : le bs < 2 ^ (8 * k) := by
  rw [pow_mul, ← h]; exact le_lt bs

section
variable {k : Nat} {bs : List Byte} (hk : 0 < k)
include hk

theorem two_pow_eq_double : (2 : Int) ^ (8 * k) = 2 * 2 ^ (8 * k - 1) := by
  rw [← pow_succ']; congr 1; omega

theorem sle_range (h : bs.length = k) :
    -(2 : Int) ^ (8 * k - 1) ≤ sle k bs ∧ sle k bs ≤ 2 ^ (8 * k - 1) - 1 := by
  have hdouble := two_pow_eq_double hk
  have hlt : (le bs : Int) < 2 ^ (8 * k) := by exact_mod_cast le_lt_two_pow h
  unfold sle
  split_ifs with hhalf <;> zify at hhalf <;> omega

/-- An integer of the signed range is the signed reading of its low bytes. -/
theorem sle_eq_of_le_eq_emod {n : Int} (hle : (le bs : Int) = n % 2 ^ (8 * k))
    (hmin : -(2 : Int) ^ (8 * k - 1) ≤ n) (hmax : n ≤ 2 ^ (8 * k - 1) - 1) : sle k bs = n := by
  have hdouble := two_pow_eq_double hk
  have hemod : n % 2 ^ (8 * k) = if 0 ≤ n then n else n + 2 ^ (8 * k) := by
    split_ifs with hn
    · exact Int.emod_eq_of_lt hn (by omega)
    · rw [← Int.add_emod_right]; exact Int.emod_eq_of_lt (by omega) (by omega)
  unfold sle
  zify
  rw [hle, hemod]
  split_ifs <;> omega

end

theorem sle_emod {k : Nat} {bs : List Byte} (h : bs.length = k) : sle k bs % 2 ^ (8 * k) = le bs := by
  have hlt : (le bs : Int) < 2 ^ (8 * k) := by exact_mod_cast le_lt_two_pow h
  have hle : (le bs : Int) % 2 ^ (8 * k) = le bs := Int.emod_eq_of_lt (by omega) hlt
  unfold sle
  split_ifs
  · rw [Int.sub_emod_right, hle]
  · exact hle

/-- The low bytes of an integer, read back. -/
theorem le_leBytes_emod (k : Nat) (n : Int) :
    (le (leBytes k (n % 2 ^ (8 * k)).toNat) : Int) = n % 2 ^ (8 * k) := by
  have hnonneg : 0 ≤ n % 2 ^ (8 * k) := Int.emod_nonneg n (by positivity)
  have hlt : n % 2 ^ (8 * k) < 2 ^ (8 * k) := Int.emod_lt_of_pos n (by positivity)
  rw [le_leBytes, Int.toNat_of_nonneg hnonneg]
  rw [show (256 : Nat) = 2 ^ 8 from rfl, ← pow_mul]
  zify
  rwa [Int.toNat_of_nonneg hnonneg]

/-! ### Elements (R103, R104) -/

section
variable {d : Byte} {n : Int}

theorem inRange_signed_iff (hs : descSigned d = true) :
    inRange d n = true
      ↔ -(2 : Int) ^ (8 * descWidth d - 1) ≤ n ∧ n ≤ 2 ^ (8 * descWidth d - 1) - 1 := by
  simp [inRange, rangeMin, rangeMax, hs]

theorem inRange_unsigned_iff (hs : descSigned d = false) :
    inRange d n = true ↔ 0 ≤ n ∧ n ≤ 2 ^ (8 * descWidth d) - 1 := by
  simp [inRange, rangeMin, rangeMax, hs]

theorem encElem_int_eq_ok_iff (hfloat : descFloat d = false) {s : List Byte} :
    encElem d (.int n) = .ok s
      ↔ inRange d n = true ∧ leBytes (descWidth d) (n % 2 ^ (8 * descWidth d)).toNat = s := by
  by_cases hr : inRange d n <;> simp [encElem, hfloat, hr]

end

section
variable {d : Byte} (hd : descValid d = true)
include hd

/-- The bytes of a value the descriptor can encode are read back as the value. -/
theorem decElem_encElem {v : PVal} {s : List Byte} (h : encElem d v = .ok s) : decElem d s = v := by
  cases hfloat : descFloat d with
  | true =>
    cases v with
    | int n => simp [encElem, hfloat] at h
    | f32 bits =>
      simp only [encElem, hfloat, if_true, Except.ok.injEq] at h
      subst h
      have hle : le (leBytes 4 bits.toNat) = bits.toNat := le_leBytes bits.isLt
      simp [decElem, hfloat, hle]
  | false =>
    cases v with
    | f32 bits => simp [encElem, hfloat] at h
    | int n =>
      obtain ⟨hrange, rfl⟩ := (encElem_int_eq_ok_iff hfloat).1 h
      have hle := le_leBytes_emod (descWidth d) n
      cases hsigned : descSigned d with
      | true =>
        obtain ⟨hmin, hmax⟩ := (inRange_signed_iff hsigned).1 hrange
        simp only [decElem, hfloat, hsigned, if_true, Bool.false_eq_true, if_false,
          sle_eq_of_le_eq_emod (descWidth_pos hd) hle hmin hmax]
      | false =>
        obtain ⟨hmin, hmax⟩ := (inRange_unsigned_iff hsigned).1 hrange
        rw [Int.emod_eq_of_lt hmin (by omega)] at hle ⊢
        simp only [decElem, hfloat, hsigned, Bool.false_eq_true, if_false, hle]

/-- The value of an element's bytes is encoded as these bytes. -/
theorem encElem_decElem {s : List Byte} (h : s.length = descWidth d) :
    encElem d (decElem d s) = .ok s := by
  cases hfloat : descFloat d with
  | true =>
    have hlen : s.length = 4 := h.trans (descWidth_float hd hfloat)
    have hlt : le s < 2 ^ 32 := le_lt_two_pow hlen
    have hbits : (BitVec.ofNat 32 (le s)).toNat = le s := by
      rw [BitVec.toNat_ofNat, Nat.mod_eq_of_lt hlt]
    simp only [decElem, encElem, hfloat, if_true, hbits, leBytes_le' hlen]
  | false =>
    cases hsigned : descSigned d with
    | true =>
      have hvalue : decElem d s = .int (sle (descWidth d) s) := by simp [decElem, hfloat, hsigned]
      rw [hvalue, encElem_int_eq_ok_iff hfloat, inRange_signed_iff hsigned, sle_emod h, Int.toNat_natCast]
      exact ⟨sle_range (descWidth_pos hd) h, leBytes_le' h⟩
    | false =>
      have hvalue : decElem d s = .int (le s) := by simp [decElem, hfloat, hsigned]
      have hlt : (le s : Int) < 2 ^ (8 * descWidth d) := by exact_mod_cast le_lt_two_pow h
      rw [hvalue, encElem_int_eq_ok_iff hfloat, inRange_unsigned_iff hsigned,
        Int.emod_eq_of_lt (by omega) hlt, Int.toNat_natCast]
      exact ⟨⟨by omega, by omega⟩, leBytes_le' h⟩

end

/-! ### Payloads (R105 to R107) -/

theorem slice_append_left {xs : List Byte} {n : Nat} (h : xs.length = n) (ys : List Byte) :
    slice (xs ++ ys) 0 n = xs := by
  simp [slice, ← h]

@[simp] theorem decValues_nil (d : Byte) : decValues d [] = [] := by
  simp [decValues]

/-- One more element in front is one more value in front. -/
theorem decValues_append {d : Byte} {s : List Byte} (hpos : 0 < descWidth d) (hs : s.length = descWidth d)
    (rest : List Byte) : decValues d (s ++ rest) = decElem d s :: decValues d rest := by
  have hcount : (s ++ rest).length / descWidth d = rest.length / descWidth d + 1 := by
    rw [List.length_append, hs, Nat.add_div_left _ hpos]
  have hnext (i : Nat) :
      slice (s ++ rest) ((i + 1) * descWidth d) (descWidth d)
        = slice rest (i * descWidth d) (descWidth d) := by
    rw [← slice_append_add s rest, hs]
    congr 1; ring
  simp only [decValues, hcount, List.range_succ_eq_map, List.map_cons, List.map_map, Nat.zero_mul,
    slice_append_left hs]
  congr 1
  exact List.map_congr_left fun i _ => congrArg (decElem d) (hnext i)

section
variable {d : Byte} (hd : descValid d = true)
include hd

/-- R109 (a): the values of a payload that encodes them. -/
theorem decValues_encValues {vs : List PVal} {out : List Byte} (h : encValues d vs = .ok out) :
    decValues d out = vs := by
  induction vs generalizing out with
  | nil => cases h; exact decValues_nil d
  | cons v vs ih =>
    simp only [encValues] at h
    split at h
    case h_1 => cases h
    case h_2 s hs =>
      split at h
      case h_1 => cases h
      case h_2 rest hrest =>
        cases h
        rw [decValues_append (descWidth_pos hd) (encElem_length hd hs), decElem_encElem hd hs, ih hrest]

/-- R109 (b): the payload of the values of whole elements. -/
theorem encValues_decValues {bs : List Byte} (h : bs.length % descWidth d = 0) :
    encValues d (decValues d bs) = .ok bs := by
  obtain ⟨n, hn⟩ := Nat.dvd_of_mod_eq_zero h
  induction n generalizing bs with
  | zero =>
    obtain rfl : bs = [] := List.length_eq_zero_iff.1 hn
    simp [encValues]
  | succ n ih =>
    have hlen : bs.length = descWidth d * n + descWidth d := hn
    have hfirst : (bs.take (descWidth d)).length = descWidth d := by rw [List.length_take]; omega
    have hrest : (bs.drop (descWidth d)).length = descWidth d * n := by rw [List.length_drop]; omega
    have ih' := ih (by simp [hrest]) hrest
    rw [← List.take_append_drop (descWidth d) bs, decValues_append (descWidth_pos hd) hfirst]
    simp only [encValues, encElem_decElem hd hfirst, ih']

theorem decBody_encValues {vs : List PVal} {out : List Byte} (h : encValues d vs = .ok out) :
    decBody d out = .ok vs := by
  simp [decBody, encValues_length hd h, decValues_encValues hd h]

end

end Sys2Proof

namespace Sys2Proof.Machine

/-! ### The bytes of an element, one by one (R40, R103) -/

theorem emod_mul_ediv {m k : Int} (n : Int) (hm : 0 < m) (hk : 0 < k) : n % (m * k) / m = n / m % k := by
  have hr : 0 ≤ n % (m * k) := Int.emod_nonneg n (by positivity)
  have hlt : n % (m * k) < m * k := Int.emod_lt_of_pos n (by positivity)
  have hn : n % (m * k) + m * (k * (n / (m * k))) = n := by
    rw [← mul_assoc]; exact Int.emod_add_mul_ediv n _
  conv_rhs => rw [← hn]
  rw [Int.add_mul_ediv_left _ _ hm.ne', Int.add_mul_emod_self_left,
    Int.emod_eq_of_lt (Int.ediv_nonneg hr hm.le) (Int.ediv_lt_of_lt_mul hm (by rwa [mul_comm k]))]

/-- The `k` low bytes of an integer are its base-256 digits under division rounding down. -/
theorem leBytes_emod (k : Nat) (n : Int) :
    leBytes k (n % 2 ^ (8 * k)).toNat = (List.range k).map (elementByte (.int n)) := by
  induction k generalizing n with
  | zero => rfl
  | succ k ih =>
    have hpow : (2 : Int) ^ (8 * (k + 1)) = 256 * 2 ^ (8 * k) := by
      rw [Nat.mul_succ, pow_add]; ring
    have hr : 0 ≤ n % (256 * 2 ^ (8 * k)) := Int.emod_nonneg n (by positivity)
    have hhead : BitVec.ofNat 8 (n % (256 * 2 ^ (8 * k))).toNat = elementByte (.int n) 0 := by
      rw [← BitVec.ofInt_natCast, Int.toNat_of_nonneg hr]
      apply BitVec.eq_of_toNat_eq
      simp [elementByte, Int.emod_emod_of_dvd]
    have htail : (n % (256 * 2 ^ (8 * k))).toNat / 256 = (n / 256 % 2 ^ (8 * k)).toNat := by
      rw [← emod_mul_ediv n (by decide) (by positivity)]
      omega
    have hnext (i : Nat) : elementByte (.int (n / 256)) i = elementByte (.int n) (i + 1) := by
      simp only [elementByte, Nat.mul_succ, pow_add]
      rw [Int.ediv_ediv_of_nonneg (by decide), mul_comm]
      rfl
    rw [hpow, leBytes, hhead, htail, ih, List.range_succ_eq_map, List.map_cons, List.map_map]
    congr 1
    exact List.map_congr_left fun i _ => hnext i

/-- The bytes of a float pattern are those of its number. -/
theorem elementByte_f32 (bits : Word) (i : Nat) :
    elementByte (.f32 bits) i = elementByte (.int bits.toNat) i := by
  change BitVec.ofNat 8 (bits.toNat >>> (8 * i)) = BitVec.ofInt 8 (bits.toNat / 2 ^ (8 * i))
  rw [Nat.shiftRight_eq_div_pow, ← BitVec.ofInt_natCast]
  push_cast
  rfl

theorem leBytes_toNat_f32 (bits : Word) :
    leBytes 4 bits.toNat = (List.range 4).map (elementByte (.f32 bits)) := by
  have hbits : ((bits.toNat : Int) % 2 ^ (8 * 4)).toNat = bits.toNat := by
    have := bits.isLt
    omega
  rw [← hbits, leBytes_emod]
  exact List.map_congr_left fun i _ => (elementByte_f32 bits i).symm

section
variable {d : Byte} (hd : descValid d = true)
include hd

theorem encElem_eq_elementBytes {v : PVal} (hv : v.fits d = true) :
    encElem d v = .ok (elementBytes d v) := by
  cases v with
  | int n =>
    simp only [PVal.fits, Bool.and_eq_true, Bool.not_eq_true'] at hv
    exact (encElem_int_eq_ok_iff hv.1).2 ⟨hv.2, leBytes_emod (descWidth d) n⟩
  | f32 bits =>
    have hfloat : descFloat d = true := hv
    simp only [encElem, hfloat, if_true, elementBytes, descWidth_float hd hfloat, leBytes_toNat_f32]

theorem encValues_eq_payloadOf {vs : List PVal} (hvs : ∀ v ∈ vs, v.fits d = true) :
    encValues d vs = .ok (payloadOf d vs) := by
  induction vs with
  | nil => rfl
  | cons v vs ih =>
    obtain ⟨hv, hrest⟩ := List.forall_mem_cons.1 hvs
    simp only [encValues, encElem_eq_elementBytes hd hv, ih hrest]
    rfl

theorem length_payloadOf {vs : List PVal} (hvs : ∀ v ∈ vs, v.fits d = true) :
    (payloadOf d vs).length = vs.length * descWidth d :=
  encValues_length hd (encValues_eq_payloadOf hd hvs)

theorem decPayload_payloadOf {vs : List PVal} (hvs : ∀ v ∈ vs, v.fits d = true) :
    decPayload d (payloadOf d vs) = .ok vs := by
  simp [decPayload, hd, decBody_encValues hd (encValues_eq_payloadOf hd hvs)]

end

end Sys2Proof.Machine
end

section
/-! Descriptor bytes (R72 to R74): the legal ones are the 18 of R73's table, each with its row; any other is
PT_ILLEGAL. -/

namespace Sys2Proof

theorem descValid_iff_mem {d : Byte} : descValid d = true ↔ d ∈ legalDescriptors := by
  revert d; decide

theorem descValid_eq_false_iff {d : Byte} : descValid d = false ↔ d ∉ legalDescriptors := by
  rw [← descValid_iff_mem, Bool.not_eq_true]

theorem decodeDescriptor_of_not_mem {d : Byte} (h : d ∉ legalDescriptors) :
    decodeDescriptor d = .ptIllegal d := by
  simp only [legalDescriptors, List.mem_cons, List.not_mem_nil, or_false, not_or] at h
  simp only [decodeDescriptor, h, if_false]

theorem decodeDescriptor_of_mem : ∀ d ∈ legalDescriptors,
    (decodeDescriptor d).wf = true ∧ (decodeDescriptor d).format = .payloadType := by
  decide

/-- R73, R74: the byte of a row of the descriptor space decodes to the row. -/
theorem decodeDescriptor_of_encode {i : Instr} {d : Byte} (hwf : i.wf = true)
    (hd : encode i = .descriptor d) : decodeDescriptor d = i := by
  cases i with
  | ptIllegal d =>
    cases hd
    have hinvalid : descValid d = false := by simpa only [Instr.wf, Bool.not_eq_true'] using hwf
    exact decodeDescriptor_of_not_mem (descValid_eq_false_iff.1 hinvalid)
  | _ => cases hd <;> rfl

theorem decodeDescriptor_wf (d : Byte) : (decodeDescriptor d).wf = true := by
  by_cases h : d ∈ legalDescriptors
  · exact (decodeDescriptor_of_mem d h).1
  · simp [decodeDescriptor_of_not_mem h, Instr.wf, descValid_eq_false_iff.2 h]

end Sys2Proof

namespace Sys2Proof.Machine

theorem exec_ptyp_of_not_mem {d : Byte} (h : d ∉ legalDescriptors) (s : State) :
    exec (.ptyp d) s = .next (s.respond (Result.fail .invalidPayloadType)) := by
  simp [exec, execPtyp, descValid_eq_false_iff.2 h]

/-- R73, R102: the row of a legal descriptor has the fields PTYP gives. -/
theorem exec_decodeDescriptor_of_mem {d : Byte} (h : d ∈ legalDescriptors) (s : State) :
    exec (decodeDescriptor d) s = exec (.ptyp d) s := by
  fin_cases h <;> rfl

/-- Settles O33, row by row. -/
theorem descriptorTable : Obligations.DescriptorTable := by
  intro row h
  fin_cases h <;> exact ⟨rfl, fun _ => rfl⟩

/-- Settles O48: a legal byte by its row, any other by PT_ILLEGAL. -/
theorem descriptorRowsArePtyp : Obligations.DescriptorRowsArePtyp := by
  intro d s
  refine ⟨⟨decodeDescriptor d, rfl, ?_⟩, fun h => ?_, rfl⟩
  · by_cases h : d ∈ legalDescriptors
    · exact ⟨(decodeDescriptor_of_mem d h).2, exec_decodeDescriptor_of_mem h s⟩
    · rw [decodeDescriptor_of_not_mem h, exec_ptyp_of_not_mem h]
      exact ⟨rfl, rfl⟩
  · rw [decode, decodeDescriptor_of_not_mem h]

end Sys2Proof.Machine
end

section
/-! Request frames (R61 to R64, R142, R143): the frames the decoder accepts are the ones the encoder
builds. -/

namespace Sys2Proof

/-! ### Checksummed frames -/

/-- A byte string of 6 bytes or more that ends in its checksum, by its header and its payload. -/
theorem exists_eq_withChecksum {f : List Byte} (hlen : 6 ≤ f.length)
    (hsum : byteAt f (f.length - 1) = checksum (f.take (f.length - 1))) :
    ∃ t n a p d pl, f = withChecksum (t :: n :: a :: p :: d :: pl) := by
  have hne : f ≠ [] := by rintro rfl; simp at hlen
  have hlast : byteAt f (f.length - 1) = f.getLast hne := by
    rw [byteAt, List.getLast_eq_getElem, List.getD_eq_getElem]
  have hf : f = withChecksum (f.take (f.length - 1)) := by
    rw [withChecksum, ← hsum, hlast, List.take_append_getLast]
  have hbody : 5 ≤ (f.take (f.length - 1)).length := by rw [List.length_take]; omega
  generalize f.take (f.length - 1) = body at hf hbody
  match body, hbody with
  | t :: n :: a :: p :: d :: pl, _ => exact ⟨t, n, a, p, d, pl, hf⟩

/-- R61, R62: the five header bytes of a frame. -/
theorem header_withChecksum (t n a p d : Byte) (rest : List Byte) :
    byteAt (withChecksum (t :: n :: a :: p :: d :: rest)) 0 = t
      ∧ byteAt (withChecksum (t :: n :: a :: p :: d :: rest)) 1 = n
      ∧ byteAt (withChecksum (t :: n :: a :: p :: d :: rest)) 2 = a
      ∧ byteAt (withChecksum (t :: n :: a :: p :: d :: rest)) 3 = p
      ∧ byteAt (withChecksum (t :: n :: a :: p :: d :: rest)) 4 = d :=
  ⟨rfl, rfl, rfl, rfl, rfl⟩

/-! ### The payload of a Write request -/

theorem decBody_eq_ok_iff {d : Byte} {bs : List Byte} {vs : List PVal} :
    decBody d bs = .ok vs ↔ bs.length % descWidth d = 0 ∧ decValues d bs = vs := by
  unfold decBody
  split_ifs with h
  · exact iff_of_false nofun fun hok => h hok.1
  · simp [not_not.1 h]

theorem encValues_of_decBody {d : Byte} (hd : descValid d = true) {bs : List Byte} {vs : List PVal}
    (h : decBody d bs = .ok vs) : encValues d vs = .ok bs := by
  obtain ⟨hwhole, rfl⟩ := decBody_eq_ok_iff.1 h
  exact encValues_decValues hd hwhole

/-- R143: a Write request within its limits has a payload, whose bytes are its values'. -/
theorem writeReq_wf_iff {a p d : Byte} {vs : List PVal} :
    (Instr.writeReq a p d vs).wf = true
      ↔ descValid d = true ∧ ∃ pl, encValues d vs = .ok pl ∧ pl.length ≤ Config.reqPayloadMax := by
  simp only [Instr.wf, Bool.and_eq_true, List.all_eq_true, decide_eq_true_eq, and_assoc]
  refine and_congr_right fun hd => ⟨?_, ?_⟩
  · rintro ⟨hfits, hlen⟩
    obtain ⟨-, pl, hpl⟩ | ⟨hnot, -⟩ := encValues_cases d vs
    · exact ⟨pl, hpl, by rwa [encValues_length hd hpl]⟩
    · exact absurd hfits hnot
  · rintro ⟨pl, hpl, hlen⟩
    obtain ⟨hfits, -⟩ | ⟨-, herror⟩ := encValues_cases d vs
    · exact ⟨hfits, by rwa [← encValues_length hd hpl]⟩
    · cases hpl.symm.trans herror

/-! ### The decoder of request frames -/

/-- What the decoder of request frames accepts of a frame that ends in its checksum. -/
theorem decodeRequest_withChecksum_iff {t n a p d : Byte} {pl : List Byte} {i : Instr} :
    decodeRequest (withChecksum (t :: n :: a :: p :: d :: pl)) = .ok i
      ↔ n.toNat = 4 + pl.length ∧ descValid d = true
        ∧ ((t = 0x01 ∧ pl = [] ∧ i = .readReq a p d)
          ∨ (t = 0x02 ∧ ∃ vs, decBody d pl = .ok vs ∧ i = .writeReq a p d vs)) := by
  have hshort : ¬ pl.length + 1 + 1 + 1 + 1 + 1 + 1 < 6 := by omega
  have hlen : pl.length + 1 + 1 + 1 + 1 + 1 + 1 = 2 + n.toNat ↔ n.toNat = 4 + pl.length := by omega
  obtain ⟨h0, h1, h2, h3, h4⟩ := header_withChecksum t n a p d pl
  rw [decodeRequest, withChecksum_last, withChecksum_body, h0, h1, h2, h3, h4]
  simp only [length_withChecksum, List.length_cons, hshort, hlen, if_false, ne_eq, not_true,
    List.drop_succ_cons, List.drop_zero]
  by_cases hn : n.toNat = 4 + pl.length
  case neg => simp [hn]
  by_cases hd : descValid d = true
  case neg => simp [hn, hd]
  by_cases ht1 : t = 1#8
  · cases pl <;> simp [hn, hd, ht1, eq_comm (b := i)]
  by_cases ht2 : t = 2#8
  · cases hb : decBody d pl <;> simp [hn, hd, ht2, eq_comm (b := i)]
  · simp [hn, hd, ht1, ht2]

/-- A frame the decoder accepts ends in its checksum (R64). -/
theorem decodeRequest_ok_checksum {f : List Byte} {i : Instr} (h : decodeRequest f = .ok i) :
    6 ≤ f.length ∧ byteAt f (f.length - 1) = checksum (f.take (f.length - 1)) := by
  unfold decodeRequest at h
  split_ifs at h with hshort hlength hsum
  all_goals exact ⟨by omega, not_not.1 hsum⟩

/-- R142, R143: a request frame is the encoding of what it decodes to, which is within its limits. -/
theorem decodeRequest_ok {f : List Byte} {i : Instr} (h : decodeRequest f = .ok i) :
    i.wf = true ∧ encode i = .requestFrame f := by
  obtain ⟨hlen, hsum⟩ := decodeRequest_ok_checksum h
  obtain ⟨t, n, a, p, d, pl, rfl⟩ := exists_eq_withChecksum hlen hsum
  obtain ⟨hn, hd, hrow⟩ := decodeRequest_withChecksum_iff.1 h
  have hbyte : n = BitVec.ofNat 8 (4 + pl.length) := by rw [← hn, BitVec.ofNat_toNat, BitVec.setWidth_eq]
  obtain ⟨rfl, rfl, rfl⟩ | ⟨rfl, vs, hvs, rfl⟩ := hrow
  · exact ⟨hd, by rw [hbyte]; rfl⟩
  · have hpl := encValues_of_decBody hd hvs
    have hlt : n.toNat < 256 := n.isLt
    have hmax : pl.length ≤ 251 := by omega
    refine ⟨writeReq_wf_iff.2 ⟨hd, pl, hpl, hmax⟩, ?_⟩
    simp only [encode, payloadBytes, hpl, hbyte, writeFrame]
    rfl

/-- R61: the frame of a request within its limits decodes to the request. -/
theorem decodeRequest_of_encode {i : Instr} {f : List Byte} (hwf : i.wf = true)
    (hf : encode i = .requestFrame f) : decodeRequest f = .ok i := by
  cases i with
  | readReq a p d =>
    cases hf
    exact decodeRequest_withChecksum_iff.2 ⟨rfl, hwf, .inl ⟨rfl, rfl, rfl⟩⟩
  | writeReq a p d vs =>
    cases hf
    obtain ⟨hd, pl, hpl, hlen : pl.length ≤ 251⟩ := writeReq_wf_iff.1 hwf
    simp only [payloadBytes, hpl]
    have hn : (BitVec.ofNat 8 (4 + pl.length)).toNat = 4 + pl.length := by
      rw [BitVec.toNat_ofNat]; exact Nat.mod_eq_of_lt (by omega)
    exact decodeRequest_withChecksum_iff.2 ⟨hn, hd, .inr ⟨rfl, vs, decBody_encValues hd hpl, rfl⟩⟩
  | _ => cases hf

end Sys2Proof

namespace Sys2Proof.Machine

/-- R142, R143: the row of a request within its limits gives the request's frame. -/
theorem exec_of_encode_requestFrame {i : Instr} {f : List Byte} (hwf : i.wf = true)
    (hf : encode i = .requestFrame f) (s : State) : exec i s = .next (s.respond (Result.ofBytes f)) := by
  cases i with
  | readReq a p d =>
    cases hf
    have hd : descValid d = true := hwf
    simp [exec, execReadReq, encodeRead, hd, Result.ofExcept]
  | writeReq a p d vs =>
    cases hf
    obtain ⟨hd, pl, hpl, hlen⟩ := writeReq_wf_iff.1 hwf
    have henc : encPayload Config.reqPayloadMax d vs = .ok pl := by
      simp [encPayload, hd, hpl, hlen]
    simp only [exec, execWriteReq, encodeWrite, henc, payloadBytes, hpl]
    rfl
  | _ => cases hf

/-- Settles O46: the frame is the encoding of the row it decodes to, and the row gives its encoding. -/
theorem requestRowsAreBuiltFrames : Obligations.RequestRowsAreBuiltFrames := by
  intro s
  refine ⟨fun _ _ _ => rfl, fun _ _ _ _ => rfl, fun f i h => ?_⟩
  obtain ⟨hwf, hf⟩ := decodeRequest_ok h
  exact exec_of_encode_requestFrame hwf hf s

end Sys2Proof.Machine
end

section
/-! Reply frames (R62, R70, R170 to R176): the row of a frame, its record, and DECR of the two layouts. -/

namespace Sys2Proof

/-! ### The row of a reply frame (R70) -/

theorem decodeReplyRow_format (raw : List Byte) : (decodeReplyRow raw).format = .replyFrame := by
  fun_cases decodeReplyRow raw <;> rfl

theorem decodeReplyRow_wf {raw : List Byte} (h : raw.length ≤ Config.frameMax) :
    (decodeReplyRow raw).wf = true := by
  fun_cases decodeReplyRow raw
  case case1 => rfl
  case case7 t rest h1 h2 h3 h9 hA =>
    have hkind : msgKind t = none := by simp only [msgKind, h1, h2, h3, h9, hA, if_false]
    simp only [Instr.wf, h, byteAt_cons_zero, hkind, decide_true, beq_self_eq_true, Bool.or_true,
      Bool.and_self]
  all_goals exact decide_eq_true h

/-- R70: the frame of a row of the reply space decodes to the row. -/
theorem decode_of_encode_replyFrame {i : Instr} {raw : List Byte} (hwf : i.wf = true)
    (hf : encode i = .replyFrame raw) : decode (.replyFrame raw) = .ok i := by
  have hrow : decodeReplyRow raw = i ∧ raw.length ≤ Config.frameMax := by
    cases i with
    | read | write | event | readError | writeError =>
      cases hf
      exact ⟨rfl, of_decide_eq_true hwf⟩
    | replyUnassigned raw =>
      cases hf
      simp only [Instr.wf, Bool.and_eq_true, decide_eq_true_eq] at hwf
      refine ⟨?_, hwf.1⟩
      fun_cases decodeReplyRow raw
      case case1 | case7 => rfl
      all_goals exact absurd hwf.2 Bool.false_ne_true
    | _ => cases hf
  rw [decode, if_neg (Nat.not_lt.2 hrow.2), hrow.1]

end Sys2Proof

namespace Sys2Proof.Machine

/-! ### The record of a reply frame (R170, R175) -/

theorem msgKind_eq_some_iff {t : Byte} {k : MsgKind} : msgKind t = some k ↔ (t, k) ∈ assignedTypes := by
  cases k <;> revert t <;> decide

theorem msgKind_eq_none_iff {t : Byte} : msgKind t = none ↔ t ∉ assignedTypes.map Prod.fst := by
  revert t; decide

theorem exec_decodeReplyRow (raw : List Byte) (s : State) :
    exec (decodeReplyRow raw) s = exec (.decr raw) s := by
  fun_cases decodeReplyRow raw <;> rfl

/-- R175: a decoded frame has the kind of its type byte. -/
theorem decodeReply_kind {p : TsPolicy} {raw : List Byte} {m : Reply} (h : decodeReply p raw = .ok m) :
    msgKind (byteAt raw 0) = some m.kind ∧ m.msgType = byteAt raw 0 := by
  unfold decodeReply at h
  split_ifs at h
  split at h
  case h_1 => cases h
  case h_2 kind hkind =>
    split at h
    case h_1 => cases h
    case h_2 => cases h; exact ⟨hkind, rfl⟩

theorem decPayload_ne_error_ok (d : Byte) (bs : List Byte) : decPayload d bs ≠ .error .ok := by
  unfold decPayload decBody
  split_ifs <;> nofun

/-- R310: a check that fails raises a status other than `OK`. -/
theorem decodeReply_ne_error_ok (p : TsPolicy) (raw : List Byte) : decodeReply p raw ≠ .error .ok := by
  unfold decodeReply
  split_ifs
  case neg =>
    split
    · nofun
    · split
      case h_1 e he =>
        rintro ⟨⟩
        exact decPayload_ne_error_ok _ _ he
      case h_2 => nofun
  all_goals nofun

/-- What DECR can do: an error status alone, or the record of the frame, whose kind is that of its type byte
(R70, R175). -/
theorem exec_decr_cases (raw : List Byte) (s : State) :
    (∃ e, e ≠ .ok ∧ exec (.decr raw) s = .next (s.respond (Result.fail e)))
      ∨ ∃ m, exec (.decr raw) s = .next (s.respond (Result.ofReply m))
          ∧ msgKind (byteAt raw 0) = some m.kind ∧ m.msgType = byteAt raw 0 := by
  simp only [exec, execDecr]
  cases h : decodeReply s.tsPolicy raw with
  | error e => exact .inl ⟨e, by rintro rfl; exact decodeReply_ne_error_ok _ _ h, rfl⟩
  | ok m => exact .inr ⟨m, rfl, decodeReply_kind h⟩

/-- Settles O49: the row of the frame is `decodeReplyRow`. -/
theorem replyFramesDecodeToTheirRow : Obligations.ReplyFramesDecodeToTheirRow := by
  intro raw s hlen
  refine ⟨decodeReplyRow raw, ?_, decodeReplyRow_format raw, exec_decodeReplyRow raw s, ?_⟩
  · rw [decode, if_neg (Nat.not_lt.2 hlen)]
  refine ⟨?_, ?_, ?_, ?_, ?_, ?_, ?_⟩
  case refine_6 =>
    rintro t rest rfl ht
    simp only [List.mem_cons, List.not_mem_nil, or_false, not_or] at ht
    simp only [decodeReplyRow, ht, if_false]
  case refine_7 => rintro rfl; rfl
  all_goals rintro _ rfl; rfl

/-- Settles O47, by what DECR can do: a record has the kind of the type byte, and an unassigned type byte
has none. -/
theorem replyRowKinds : Obligations.ReplyRowKinds := by
  intro s rest
  refine ⟨fun i t k hrow => ?_, fun raw hraw => ⟨rfl, ?_⟩⟩
  · have hexec : exec i s = exec (.decr (t :: rest)) s ∧ msgKind t = some k := by
      fin_cases hrow <;> exact ⟨rfl, rfl⟩
    refine ⟨hexec.1, ?_⟩
    rw [hexec.1]
    obtain ⟨e, he, hfail⟩ | ⟨m, hok, hkind, htype⟩ := exec_decr_cases (t :: rest) s
    · exact ⟨_, hfail, fun h => absurd h he⟩
    · exact ⟨_, hok, fun _ => ⟨m, rfl, Option.some.inj (hkind.symm.trans hexec.2), htype⟩⟩
  · have hnone : msgKind (byteAt raw 0) = none := by
      obtain rfl | htype := hraw
      · rfl
      · exact msgKind_eq_none_iff.2 htype
    obtain ⟨e, he, hfail⟩ | ⟨m, -, hkind, -⟩ := exec_decr_cases raw s
    · exact ⟨e, he, hfail⟩
    · cases hnone.symm.trans hkind

/-! ### DECR of the two layouts (R62, R170 to R173) -/

/-- R176: the reply record, by the fields of the frame. -/
def replyRecord (kind : MsgKind) (t n a q d : Byte) (ts : Option Timestamp) (pl : List Byte) (cs : Byte)
    (vs : List PVal) : Reply :=
  { kind := kind, msgType := t, length := n, address := a, port := q, payloadType := d, timestamp := ts,
    payload := pl, values := vs, checksum := cs }

theorem belowMinimum_eq_false_iff {p : TsPolicy} {raw : List Byte} :
    belowMinimum p raw = false ↔ headerLen p raw < raw.length := by
  cases p with
  | always => simp [belowMinimum, headerLen]; omega
  | gated =>
    simp only [belowMinimum, headerLen]
    split <;> simp <;> omega

/-- DECR of a frame of an assigned type that ends in its checksum, has the length its length byte says and
is not too short: the record, or the payload's error. -/
theorem decodeReply_withChecksum {pol : TsPolicy} {t n a q d : Byte} {rest pl : List Byte} {kind : MsgKind}
    {h : Nat} {ts : Option Timestamp} (hkind : msgKind t = some kind) (hn : n.toNat = 4 + rest.length)
    (hh : headerLen pol (withChecksum (t :: n :: a :: q :: d :: rest)) = h) (hle : h ≤ 5 + rest.length)
    (hts : replyTimestamp pol (withChecksum (t :: n :: a :: q :: d :: rest)) = ts)
    (hpl : (t :: n :: a :: q :: d :: rest).drop h = pl) :
    decodeReply pol (withChecksum (t :: n :: a :: q :: d :: rest))
      = (decPayload d pl).map
          (replyRecord kind t n a q d ts pl (checksum (t :: n :: a :: q :: d :: rest))) := by
  obtain ⟨h0, h1, h2, h3, h4⟩ := header_withChecksum t n a q d rest
  have hlen : (withChecksum (t :: n :: a :: q :: d :: rest)).length = 2 + n.toNat := by
    simp only [length_withChecksum, List.length_cons]; omega
  have hmin : belowMinimum pol (withChecksum (t :: n :: a :: q :: d :: rest)) = false :=
    belowMinimum_eq_false_iff.2 (by omega)
  have hbody : replyPayload pol (withChecksum (t :: n :: a :: q :: d :: rest)) = pl := by
    rw [replyPayload, withChecksum_body, hh, hpl]
  rw [decodeReply, withChecksum_last, withChecksum_body, hmin, hlen, h0, h1, h2, h3, h4, hbody, hts]
  simp only [Bool.false_eq_true, Nat.lt_irrefl, ne_eq, not_true, if_false, hkind]
  cases decPayload d pl <;> rfl

theorem headerLen_of_usesLayoutT {pol : TsPolicy} {raw : List Byte} (h : UsesLayoutT pol (byteAt raw 4)) :
    headerLen pol raw = 11 := by
  cases pol with
  | always => rfl
  | gated =>
    have hbit : descTs (byteAt raw 4) = true := h.resolve_left nofun
    simp only [headerLen, hbit, if_true]

theorem headerLen_of_not_usesLayoutT {pol : TsPolicy} {raw : List Byte}
    (h : ¬ UsesLayoutT pol (byteAt raw 4)) : headerLen pol raw = 5 := by
  obtain ⟨hpol, hbit⟩ := not_or.1 h
  cases pol with
  | always => exact absurd rfl hpol
  | gated => simp only [headerLen, descTs, hbit, if_false, Bool.false_eq_true]

/-- DECR of a frame in layout T, where that layout is used (R62, R170, R173). -/
theorem decodeReply_layoutT {pol : TsPolicy} {t d : Byte} {kind : MsgKind} (a q : Byte) (ts : Timestamp)
    {pl : List Byte} (hkind : (t, kind) ∈ assignedTypes) (hT : UsesLayoutT pol d) (hlen : pl.length ≤ 245) :
    decodeReply pol (layoutT t a q d ts pl)
      = (decPayload d pl).map (replyRecord kind t (BitVec.ofNat 8 (10 + pl.length)) a q d (some ts) pl
          (checksum (layoutT t a q d ts pl).dropLast)) := by
  have hh := headerLen_of_usesLayoutT (raw := layoutT t a q d ts pl) hT
  have hseconds : slice (layoutT t a q d ts pl) 5 4 = leBytes 4 ts.seconds.toNat := by
    simp [slice, layoutT, withChecksum, leBytes]
  have hticks : slice (layoutT t a q d ts pl) 9 2 = leBytes 2 ts.ticks.toNat := by
    simp [slice, layoutT, withChecksum, leBytes]
  have hts : replyTimestamp pol (layoutT t a q d ts pl) = some ts := by
    rw [replyTimestamp, if_pos hh, hseconds, hticks, le_leBytes ts.seconds.isLt, le_leBytes ts.ticks.isLt]
    simp
  rw [layoutT, dropLast_withChecksum]
  refine decodeReply_withChecksum (rest := leBytes 4 ts.seconds.toNat ++ leBytes 2 ts.ticks.toNat ++ pl)
    (msgKind_eq_some_iff.2 hkind) ?_ hh ?_ hts ?_
  · simp; omega
  · simp; omega
  · simp [leBytes]

/-- DECR of a frame in layout N, where that layout is used (R62, R170). -/
theorem decodeReply_layoutN {pol : TsPolicy} {t d : Byte} {kind : MsgKind} (a q : Byte) {pl : List Byte}
    (hkind : (t, kind) ∈ assignedTypes) (hN : ¬ UsesLayoutT pol d) (hlen : pl.length ≤ 251) :
    decodeReply pol (layoutN t a q d pl)
      = (decPayload d pl).map (replyRecord kind t (BitVec.ofNat 8 (4 + pl.length)) a q d none pl
          (checksum (layoutN t a q d pl).dropLast)) := by
  have hh := headerLen_of_not_usesLayoutT (raw := layoutN t a q d pl) hN
  have hts : replyTimestamp pol (layoutN t a q d pl) = none := by
    rw [replyTimestamp, hh]; rfl
  rw [layoutN, dropLast_withChecksum]
  refine decodeReply_withChecksum (msgKind_eq_some_iff.2 hkind) ?_ hh (by omega) hts rfl
  rw [BitVec.toNat_ofNat]
  exact Nat.mod_eq_of_lt (by omega)

/-- Settles O42, by DECR of layout T and the values of the payload. -/
theorem decrLayoutT : Obligations.DecrLayoutT := by
  intro t kind a p d ts vs s hkind hlegal hT hvs hlen
  have hd := descValid_iff_mem.2 hlegal
  have hpl := length_payloadOf hd hvs
  simp only [exec, execDecr, decodeReply_layoutT a p ts hkind hT (hpl.le.trans hlen),
    decPayload_payloadOf hd hvs, ← hpl]
  rfl

/-- Settles O43, by DECR of layout N and the values of the payload. -/
theorem decrLayoutN : Obligations.DecrLayoutN := by
  intro t kind a p d vs s hkind hlegal hpol hbit hvs hlen
  have hd := descValid_iff_mem.2 hlegal
  have hpl := length_payloadOf hd hvs
  have hN : ¬ UsesLayoutT s.tsPolicy d := by
    rintro (h | h)
    · cases hpol.symm.trans h
    · cases hbit.symm.trans h
  simp only [exec, execDecr, decodeReply_layoutN a p hkind hN (hpl.le.trans hlen),
    decPayload_payloadOf hd hvs, ← hpl]
  rfl

/-- Settles O34: each operation validates the descriptor before its operands; DECR's earlier checks pass on
the frames of the two layouts. -/
theorem illegalDescriptorRaises : Obligations.IllegalDescriptorRaises := by
  intro d
  refine ⟨by revert d; decide, fun hd s i hi => ?_⟩
  have hvalid := descValid_eq_false_iff.2 hd
  have hpayload (bs : List Byte) : decPayload d bs = .error .invalidPayloadType := by
    simp [decPayload, hvalid]
  obtain rfl | ⟨vs, rfl⟩ | ⟨bs, rfl⟩ | ⟨a, p, rfl⟩ | ⟨a, p, vs, rfl⟩ | ⟨t, a, p, ts, pl, ht, hT, hlen, rfl⟩
    | ⟨t, a, p, pl, ht, hN, hlen, rfl⟩ := hi
  · exact exec_ptyp_of_not_mem hd s
  · simp [exec, execPenc, encPayload, hvalid, Result.ofExcept, State.respond, Result.fail]
  · simp [exec, execPdec, hpayload, Result.ofExcept, State.respond, Result.fail]
  · simp [exec, execEncr, encodeRead, hvalid, Result.ofExcept, State.respond, Result.fail]
  · simp [exec, execEncw, encodeWrite, encPayload, hvalid, Result.ofExcept, State.respond, Result.fail]
  · obtain ⟨⟨_, kind⟩, hkind, rfl⟩ := List.mem_map.1 ht
    simp only [exec, execDecr, decodeReply_layoutT a p ts hkind hT hlen, hpayload]
    rfl
  · obtain ⟨⟨_, kind⟩, hkind, rfl⟩ := List.mem_map.1 ht
    simp only [exec, execDecr, decodeReply_layoutN a p hkind hN hlen, hpayload]
    rfl

end Sys2Proof.Machine
end

section
/-! The decoder and the encoder over the five encoding spaces (R61, R62, R73, R81, R86). -/

namespace Sys2Proof

/-- R86: the word of a receive event decodes to its row. -/
theorem decode_of_encode_receive {i : Instr} {ev : BitVec 2} {b : Byte} (hwf : i.wf = true)
    (he : encode i = .receive ev b) : decode (.receive ev b) = .ok i := by
  cases i with
  | rxReserved => cases hwf
  | _ => cases he <;> rfl

theorem decode_of_encode {i : Instr} {e : Encoded} (hwf : i.wf = true) (he : encode i = e) :
    decode e = .ok i := by
  cases e with
  | command c => exact congrArg Except.ok (decodeCommand_of_encode hwf he)
  | receive ev b => exact decode_of_encode_receive hwf he
  | requestFrame f => exact decodeRequest_of_encode hwf he
  | replyFrame f => exact decode_of_encode_replyFrame hwf he
  | descriptor d => exact congrArg Except.ok (decodeDescriptor_of_encode hwf he)

theorem decode_wf {e : Encoded} {i : Instr} (h : decode e = .ok i) : i.wf = true := by
  cases e with
  | command c => cases h; exact decodeCommand_wf c
  | receive ev b => obtain ⟨-, rfl⟩ | ⟨-, rfl⟩ | ⟨-, rfl⟩ := Machine.decode_receive_ok h <;> rfl
  | requestFrame f => exact (decodeRequest_ok h).1
  | replyFrame f =>
    simp only [decode] at h
    split_ifs at h with hlen
    cases h
    exact decodeReplyRow_wf (Nat.not_lt.1 hlen)
  | descriptor d => cases h; exact decodeDescriptor_wf d

end Sys2Proof

namespace Sys2Proof.Machine

/-- Settles O52, space by space. -/
theorem decodeOfEncode : Obligations.DecodeOfEncode :=
  fun _ hwf => decode_of_encode hwf rfl

/-- Settles O54, space by space. -/
theorem decodedIsWellFormed : Obligations.DecodedIsWellFormed :=
  fun _ _ h => decode_wf h

/-- Settles O55: the decoder computes each word. -/
theorem sampleWordsDecode : Obligations.SampleWordsDecode :=
  ⟨rfl, rfl, rfl, rfl, rfl, rfl, rfl, rfl⟩

/-- Settles O56, by the definitions of the expansions, one word for each byte. -/
theorem pseudoOperationsExpand : Obligations.PseudoOperationsExpand := by
  intro a d vs f
  exact ⟨rfl, rfl, rfl, List.map_map⟩

/-! ### Receive events (R86 to R88) -/

/-- Settles O15: a receive event is a step of the receive source. -/
theorem receiveEventFrame : Obligations.ReceiveEventFrame := by
  rintro s i (⟨b, rfl⟩ | rfl | rfl)
  · exact ⟨_, _, exec_rxEvent (.rxByte b) s⟩
  · exact ⟨_, _, exec_rxEvent .rxTimeout s⟩
  · exact ⟨_, _, exec_rxEvent .rxClosed s⟩

/-- Settles O23: what the decoder answers is well formed, which the row of event code 3 is not, and a step
on that code is refused, so a run stops there. -/
theorem reservedEventRefused : Obligations.ReservedEventRefused := by
  refine ⟨fun e => ?_, fun ev b hev => ?_, fun b => ⟨rfl, rfl⟩, fun e h => ?_, fun s => rfl,
    fun b s rest hs => ?_⟩
  · cases e with
    | rxByte b => exact .inl ⟨b, rfl⟩
    | rxTimeout => exact .inr (.inl rfl)
    | rxClosed => exact .inr (.inr rfl)
  · obtain ⟨rfl, -⟩ | ⟨rfl, -⟩ | ⟨rfl, -⟩ | ⟨h3, -⟩ := decodeReceive_cases ev b
    · exact ⟨.rxByte b, rfl, rfl⟩
    · exact ⟨.rxTimeout, rfl, rfl⟩
    · exact ⟨.rxClosed, rfl, rfl⟩
    · exact absurd h3 hev
  · cases decode_wf h
  · have hstep := step_undecodable hs (decode_rxReserved b)
    refine ⟨hstep, fun n t hrun => ?_⟩
    obtain ⟨s', hnext, -⟩ := runSteps_succ_next.1 hrun
    cases hstep.symm.trans hnext

end Sys2Proof.Machine
end

section
/-! The PayloadCodec's commands (R100 to R107, R109): PTYP, PENC and PDEC, their results from their operands,
and the two round trips. -/

namespace Sys2Proof

/-- R72: the width field is the low half of the descriptor byte. -/
theorem descWidth_eq_toNat_and (d : Byte) : descWidth d = (d &&& 0x0F).toNat := by
  revert d; decide

theorem descFields_eq (d : Byte) : descFields d =
    { width := (d &&& 0x0F).toNat, signed := d.getLsbD 7, isFloat := d.getLsbD 6,
      hasTimestamp := d.getLsbD 4 } := by
  rw [descFields, descWidth_eq_toNat_and]; rfl

theorem mem_widths_iff (w : Byte) : w.toNat ∈ Config.widths ↔ w ∈ ([1, 2, 4, 8] : List Byte) := by
  simp [Config.widths, ← BitVec.toNat_inj]

/-- R100: the conjuncts of the legality predicate, read off the bits of the byte. -/
theorem descValid_iff_bits {d : Byte} : descValid d = true ↔
    (d &&& 0x0F) ∈ ([1, 2, 4, 8] : List Byte) ∧ d.getLsbD 5 = false
      ∧ (d.getLsbD 6 = true → d &&& 0x0F = 4) ∧ ¬ (d.getLsbD 6 = true ∧ d.getLsbD 7 = true) := by
  have hfour : (d &&& 0x0F).toNat = Config.floatWidth ↔ d &&& 0x0F = 4 := by
    simp [Config.floatWidth, ← BitVec.toNat_inj]
  rw [← mem_widths_iff, ← hfour]
  simp only [descValid, descReserved, descFloat, descSigned, ← descWidth_eq_toNat_and, Bool.and_eq_true,
    Bool.or_eq_true, Bool.not_eq_true', List.contains_iff_mem, beq_iff_eq, and_assoc]
  cases d.getLsbD 6 <;> simp

end Sys2Proof

namespace Sys2Proof.Machine

/-- Settles O32, by the bits of the byte, and by its membership in the table of R73, whose bytes are the 18
(the table has the name `legalDescriptors`). -/
theorem legalDescriptors_iff : Obligations.LegalDescriptors :=
  fun _ => ⟨descValid_iff_bits, descValid_iff_mem, descValid_iff_mem⟩

/-! ### What the commands return -/

theorem exec_ptyp_of_mem {d : Byte} (h : d ∈ legalDescriptors) (s : State) :
    exec (.ptyp d) s = .next (s.respond (Result.ofDesc (descFields d))) := by
  simp [exec, execPtyp, descValid_iff_mem.2 h]

section
variable {d : Byte}

theorem exec_penc_of_encPayload_error {vs : List PVal} {e : Status}
    (h : encPayload Config.payloadMax d vs = .error e) (s : State) :
    exec (.penc d vs) s = .next (s.respond (Result.fail e)) := by
  simp [exec, execPenc, h, Result.ofExcept]

theorem exec_penc_of_encPayload_ok {vs : List PVal} {out : List Byte}
    (h : encPayload Config.payloadMax d vs = .ok out) (s : State) :
    exec (.penc d vs) s = .next (s.respond (Result.ofBytes out)) := by
  simp [exec, execPenc, h, Result.ofExcept]

theorem exec_pdec_of_decPayload_error {bs : List Byte} {e : Status} (h : decPayload d bs = .error e)
    (s : State) : exec (.pdec d bs) s = .next (s.respond (Result.fail e)) := by
  simp [exec, execPdec, h, Result.ofExcept]

theorem exec_pdec_of_decPayload_ok {bs : List Byte} {vs : List PVal} (h : decPayload d bs = .ok vs)
    (s : State) : exec (.pdec d bs) s = .next (s.respond (Result.ofValues vs)) := by
  simp [exec, execPdec, h, Result.ofExcept]

end

/-! ### Payloads under a legal descriptor -/

/-- R104: the decoder's value of an element is the one the rule describes. -/
theorem decElem_eq_elementValue (d : Byte) (s : List Byte) : decElem d s = elementValue d s := by
  unfold decElem elementValue descFloat descSigned sle
  cases d.getLsbD 6 with
  | true => rfl
  | false =>
    cases d.getLsbD 7 with
    | true => by_cases hhalf : 2 ^ (8 * descWidth d - 1) ≤ le s <;> simp [hhalf]
    | false => simp

theorem decValues_eq_elementValues (d : Byte) (bs : List Byte) : decValues d bs = elementValues d bs := by
  simp only [decValues, elementValues, decElem_eq_elementValue]

section
variable {d : Byte} (hd : descValid d = true)
include hd

theorem encPayload_of_encValues {limit : Nat} {vs : List PVal} {out : List Byte}
    (h : encValues d vs = .ok out) (hlen : out.length ≤ limit) : encPayload limit d vs = .ok out := by
  simp [encPayload, hd, h, hlen]

theorem encPayload_payloadOf {limit : Nat} {vs : List PVal} (hvs : ∀ v ∈ vs, v.fits d = true)
    (hlen : vs.length * descWidth d ≤ limit) : encPayload limit d vs = .ok (payloadOf d vs) :=
  encPayload_of_encValues hd (encValues_eq_payloadOf hd hvs) (by rwa [length_payloadOf hd hvs])

theorem encPayload_eq_encodingError {limit : Nat} {vs : List PVal}
    (h : ¬ (∀ v ∈ vs, v.fits d = true) ∨ limit < vs.length * descWidth d) :
    encPayload limit d vs = .error .encodingError := by
  obtain ⟨hinvalid, -⟩ | ⟨-, -, herror⟩ | ⟨-, hfits, hlen, -⟩ := encPayload_cases limit d vs
  · cases hd.symm.trans hinvalid
  · exact herror
  · obtain hmisfit | hover := h
    · exact absurd hfits hmisfit
    · omega

theorem decPayload_eq_decodingError {bs : List Byte} (h : bs.length % descWidth d ≠ 0) :
    decPayload d bs = .error .decodingError := by
  simp [decPayload, decBody, hd, h]

theorem decPayload_eq_decValues {bs : List Byte} (h : bs.length % descWidth d = 0) :
    decPayload d bs = .ok (decValues d bs) := by
  simp [decPayload, decBody, hd, h]

/-- R109 (b): the values of a payload of whole elements can be encoded again. -/
theorem fits_of_mem_decValues {bs : List Byte} (h : bs.length % descWidth d = 0) :
    ∀ v ∈ decValues d bs, v.fits d = true := by
  obtain ⟨hfits, -⟩ | ⟨-, herror⟩ := encValues_cases d (decValues d bs)
  · exact hfits
  · cases (encValues_decValues hd h).symm.trans herror

end

/-! ### The commands (R102, R105, R107, R109) -/

/-- Settles O35, by the decoder and the two cases of the descriptor check. -/
theorem ptypResult : Obligations.PtypResult := by
  intro d s
  refine ⟨rfl, fun h => ?_, fun h => exec_ptyp_of_not_mem h s⟩
  rw [← descFields_eq]
  exact exec_ptyp_of_mem h s

/-- Settles O36: the command is PENC's encoding, and each outcome is one of `encPayload`. -/
theorem pencResult : Obligations.PencResult := by
  intro d vs s
  refine ⟨fun hwf => decode_of_encode (i := .penc d vs) hwf rfl,
    fun h => (illegalDescriptorRaises d).2 h s _ (.inr (.inl ⟨vs, rfl⟩)),
    fun h hbad => ?_, fun h hvs hlen => ?_⟩
  · exact exec_penc_of_encPayload_error (encPayload_eq_encodingError (descValid_iff_mem.2 h) hbad) s
  · exact exec_penc_of_encPayload_ok (encPayload_payloadOf (descValid_iff_mem.2 h) hvs hlen) s

/-- A count of at most 251 has no high byte. -/
theorem encode_pdec (d : Byte) {bs : List Byte} (h : bs.length ≤ 251) :
    encode (.pdec d bs) = .command (0x03 :: d :: BitVec.ofNat 8 bs.length :: 0x00 :: bs) := by
  have hhigh : bs.length / 256 = 0 := by omega
  simp [encode, encodeCount, leBytes, hhigh]

/-- Settles O37: the command is PDEC's encoding, and each outcome is one of `decPayload`. -/
theorem pdecResult : Obligations.PdecResult := by
  intro d bs s
  refine ⟨fun h => decode_of_encode (decide_eq_true h) (encode_pdec d h),
    fun h => (illegalDescriptorRaises d).2 h s _ (.inr (.inr (.inl ⟨bs, rfl⟩))),
    fun h hpart => ?_, fun h hwhole => ?_⟩
  · exact exec_pdec_of_decPayload_error (decPayload_eq_decodingError (descValid_iff_mem.2 h) hpart) s
  · rw [← decValues_eq_elementValues]
    exact exec_pdec_of_decPayload_ok (decPayload_eq_decValues (descValid_iff_mem.2 h) hwhole) s

/-- Settles O38: through the bytes the values have, and through the values the bytes have. -/
theorem payloadRoundTrips : Obligations.PayloadRoundTrips := by
  intro d s h
  have hd := descValid_iff_mem.2 h
  refine ⟨fun vs hvs hlen => ⟨payloadOf d vs, ?_, ?_⟩,
    fun bs hlen hwhole => ⟨decValues d bs, fits_of_mem_decValues hd hwhole, ?_, ?_⟩⟩
  · exact exec_penc_of_encPayload_ok (encPayload_payloadOf hd hvs hlen) s
  · exact exec_pdec_of_decPayload_ok (decPayload_payloadOf hd hvs) s
  · exact exec_pdec_of_decPayload_ok (decPayload_eq_decValues hd hwhole) s
  · exact exec_penc_of_encPayload_ok (encPayload_of_encValues hd (encValues_decValues hd hwhole) hlen) s

end Sys2Proof.Machine
end

section
/-! The checksum unit (R140, R141, R144): the checksum is the sum of the bytes in 8-bit arithmetic, and the
laws of a sum give what it detects and what it does not. -/

namespace Sys2Proof

/-- R140: the 8-bit sum, carries discarded. -/
theorem checksum_eq_sum (bs : List Byte) : checksum bs = bs.sum := by
  induction bs with
  | nil => rfl
  | cons b bs ih =>
    rw [List.sum_cons, ← ih]
    apply BitVec.eq_of_toNat_eq
    simp [checksum]

theorem checksum_toNat (bs : List Byte) : (checksum bs).toNat = (bs.map BitVec.toNat).sum % 256 := by
  simp [checksum]

theorem byteAt_set_self {f : List Byte} {i : Nat} (b : Byte) (hi : i < f.length) :
    byteAt (f.set i b) i = b := by
  simp [byteAt, hi]

theorem byteAt_set_of_ne {f : List Byte} {i j : Nat} (b : Byte) (h : i ≠ j) :
    byteAt (f.set i b) j = byteAt f j := by
  simp [byteAt, h]

theorem byteAt_take {f : List Byte} {i n : Nat} (h : i < n) : byteAt (f.take n) i = byteAt f i := by
  simp [byteAt, h]

/-- The checksum moves by the difference between the new byte and the old one. -/
theorem checksum_set {f : List Byte} {i : Nat} (hi : i < f.length) (b : Byte) :
    checksum (f.set i b) = checksum f + (-byteAt f i + b) := by
  have hbyte : byteAt f i = f[i] := List.getD_eq_getElem _ _ hi
  rw [checksum_eq_sum, checksum_eq_sum, List.sum_set', dif_pos hi, hbyte]

theorem checksum_set_ne {f : List Byte} {i : Nat} {b : Byte} (hi : i < f.length) (hb : b ≠ byteAt f i) :
    checksum (f.set i b) ≠ checksum f := by
  rw [checksum_set hi, ne_eq, add_eq_left, neg_add_eq_zero]
  exact hb.symm

/-- A CSUM command whose count is over the limit is illegal (R82 (d), R141). -/
theorem decode_csum_overlong {nL nH : Byte} (h : 257 < nL.toNat + 256 * nH.toNat) (bs : List Byte) :
    decode (.command (0x04 :: nL :: nH :: bs)) = .ok (.illegal (0x04 :: nL :: nH :: bs)) := by
  have hover : byteLimit (0x04 :: nL :: nH :: bs) < byteCount (0x04 :: nL :: nH :: bs) := by
    simpa [byteLimit, byteCount, le] using h
  exact congrArg Except.ok (decodeCommand_eq_illegal_iff.2
    (illegalCommand_cons_iff.2 (.inr (.inr (.inr (.inl hover))))))

end Sys2Proof

namespace Sys2Proof.Machine

/-- Settles O28: the accumulator adds the bytes up from the left. -/
theorem checksumForms : Obligations.ChecksumForms := by
  intro bs
  refine ⟨checksum_toNat bs, ?_, rfl⟩
  rw [checksum_eq_sum, List.sum_eq_foldl]

/-- Settles O30: a changed data byte moves the checksum and not the last byte, a changed checksum byte the
last byte alone. -/
theorem singleByteErrorDetected : Obligations.SingleByteErrorDetected := by
  intro f i b hi hb hsum
  rw [List.take_set]
  obtain hlast | hdata : i = f.length - 1 ∨ i < f.length - 1 := by omega
  · subst hlast
    have hbody : (f.take (f.length - 1)).length ≤ f.length - 1 := List.length_take_le _ _
    rwa [byteAt_set_self b hi, List.set_eq_of_length_le hbody, ← hsum]
  · have hbyte : b ≠ byteAt (f.take (f.length - 1)) i := by rwa [byteAt_take hdata]
    rw [byteAt_set_of_ne b hdata.ne, hsum]
    exact (checksum_set_ne (by simp; omega) hbyte).symm

/-- Settles O31: a sum does not depend on the order of its terms, nor the residue of the integer sum on
multiples of 256. -/
theorem reorderingUndetected : Obligations.ReorderingUndetected := by
  intro xs ys
  constructor
  · intro hperm
    rw [checksum_eq_sum, checksum_eq_sum, hperm.sum_eq]
  · intro hdvd
    have hmod : (xs.map BitVec.toNat).sum % 256 = (ys.map BitVec.toNat).sum % 256 := by omega
    rw [checksum, checksum, hmod]

/-- Settles O29: the command is CSUM's encoding, or its count is over the limit. -/
theorem csumResult : Obligations.CsumResult := by
  intro bs s
  exact ⟨fun hlen => decode_of_encode (i := .csum bs) (decide_eq_true hlen) rfl,
    fun nL nH hover => decode_csum_overlong hover bs, rfl⟩

end Sys2Proof.Machine
end

section
/-! The reader on the bytes of one frame (R63, R201): the receive state after the first bytes of a frame, and
the run over all of them, which emits the frame. -/

namespace Sys2Proof.Machine

/-! ### The receive state in the middle of a frame -/

/-- R22, R23: the receive state when exactly the bytes `pre` of a frame have come. For no bytes it is the
frame boundary, `Receive.clear`. -/
def Receive.afterBytes (pre : List Byte) : Receive :=
  { rxState := match pre with
      | [] => .idle
      | [_] => .haveType
      | _ => .body
    rxLen := byteAt pre 1
    rxCnt := BitVec.ofNat 8 (pre.length - 2)
    rxFault := .none
    rxBuf := (List.range pre.length).zip pre }

theorem Receive.afterBytes_nil : Receive.afterBytes [] = Receive.clear := rfl

@[simp] theorem Receive.afterBytes_rxLen (t n : Byte) (body : List Byte) :
    (Receive.afterBytes (t :: n :: body)).rxLen = n := rfl
@[simp] theorem Receive.afterBytes_rxCnt (t n : Byte) (body : List Byte) :
    (Receive.afterBytes (t :: n :: body)).rxCnt = BitVec.ofNat 8 body.length := rfl

theorem Receive.afterBytes_indices (pre : List Byte) :
    (Receive.afterBytes pre).rxBuf.map Prod.fst = List.range pre.length :=
  List.map_fst_zip (by simp)

theorem Receive.afterBytes_partialFrame (pre : List Byte) : (Receive.afterBytes pre).partialFrame = pre :=
  List.map_snd_zip (by simp)

/-- The next byte goes into the next entry of the buffer. -/
theorem rxStore_afterBytes {pre : List Byte} (h : pre.length < 257) (b : Byte) :
    rxStore (Receive.afterBytes pre).rxBuf pre.length b = (Receive.afterBytes (pre ++ [b])).rxBuf := by
  rw [rxStore_next _ _ b (Receive.afterBytes_indices pre) h]
  simp [Receive.afterBytes, List.range_succ, List.zip_append]

theorem rxFrame_afterBytes (pre : List Byte) :
    rxFrame (Receive.afterBytes pre).rxBuf pre.length = pre :=
  (rxFrame_all _ _ (Receive.afterBytes_indices pre)).trans (Receive.afterBytes_partialFrame pre)

/-! ### One byte of a frame (R201) -/

theorem isFrame_cons_cons {t n : Byte} {body : List Byte} :
    IsFrame (t :: n :: body) ↔ body.length = n.toNat := by
  simp only [IsFrame, List.length_cons, byteAt_cons_succ, byteAt_cons_zero]
  omega

/-- The last byte of a frame: the buffer is read out whole, and the reader is at a frame boundary. -/
theorem finishFrame_afterBytes (pre : List Byte) {f : List Byte} {n : Nat} (hn : f.length = n) :
    finishFrame (Receive.afterBytes f).rxBuf n (Receive.afterBytes pre)
      = (Receive.clear, some (.frame f)) := by
  rw [finishFrame, ← hn, rxFrame_afterBytes]
  rfl

/-- The length byte of a frame; the byte 0 is also its last (R201). -/
theorem takeLength_afterBytes {t b : Byte} {tail : List Byte} (h : IsFrame (t :: b :: tail)) :
    takeLength b (Receive.afterBytes [t])
      = if tail = [] then (Receive.clear, some (.frame [t, b])) else (Receive.afterBytes [t, b], none) := by
  have hzero : b = 0 ↔ tail = [] := by
    rw [← List.length_eq_zero_iff, isFrame_cons_cons.1 h, ← BitVec.toNat_inj]
    rfl
  have hstore : rxStore (Receive.afterBytes [t]).rxBuf 1 b = (Receive.afterBytes [t, b]).rxBuf :=
    rxStore_afterBytes (pre := [t]) (by simp) b
  rw [takeLength, hstore, finishFrame_afterBytes [t] (n := 2) rfl]
  exact if_congr hzero rfl rfl

/-- A byte after the length byte; the count reaches the length byte exactly at the last one (R22, R201). -/
theorem takeBody_afterBytes {t n b : Byte} {body tail : List Byte}
    (h : IsFrame (t :: n :: (body ++ b :: tail))) :
    takeBody b (Receive.afterBytes (t :: n :: body))
      = if tail = [] then (Receive.clear, some (.frame (t :: n :: (body ++ [b]))))
        else (Receive.afterBytes (t :: n :: (body ++ [b])), none) := by
  have hn : n.toNat < 256 := n.isLt
  have hlen : body.length + 1 + tail.length = n.toNat := by
    rw [← isFrame_cons_cons.1 h, List.length_append, List.length_cons]; omega
  have hnext : BitVec.ofNat 8 body.length + 1 = BitVec.ofNat 8 (body.length + 1) :=
    (BitVec.ofNat_add _ _).symm
  have hstore : rxStore (Receive.afterBytes (t :: n :: body)).rxBuf
      (2 + (BitVec.ofNat 8 body.length).toNat) b
        = (Receive.afterBytes (t :: n :: (body ++ [b]))).rxBuf := by
    rw [BitVec.toNat_ofNat, Nat.mod_eq_of_lt (by omega), add_comm]
    exact rxStore_afterBytes (pre := t :: n :: body) (by simp; omega) b
  have hlast : BitVec.ofNat 8 (body.length + 1) = n ↔ tail = [] := by
    rw [← List.length_eq_zero_iff, ← BitVec.toNat_inj, BitVec.toNat_ofNat, Nat.mod_eq_of_lt (by omega)]
    omega
  rw [takeBody, Receive.afterBytes_rxCnt, Receive.afterBytes_rxLen, hstore, hnext]
  by_cases htail : tail = []
  · subst htail
    rw [if_pos (hlast.2 rfl), if_pos rfl]
    refine finishFrame_afterBytes _ ?_
    simp only [List.length_cons, List.length_append, List.length_nil] at hlen ⊢
    omega
  · rw [if_neg (mt hlast.1 htail), if_neg htail]
    simp [Receive.afterBytes]

/-- What one byte of a frame does, with `tail` still to come: the last one completes the frame. -/
theorem takeByte_afterBytes {pre tail : List Byte} {b : Byte} (h : IsFrame (pre ++ b :: tail)) :
    takeByte b (Receive.afterBytes pre)
      = if tail = [] then (Receive.clear, some (.frame (pre ++ [b])))
        else (Receive.afterBytes (pre ++ [b]), none) := by
  match pre, h with
  | [], h =>
    have htail : tail ≠ [] := by
      rintro rfl
      exact absurd h.1 (by simp)
    rw [if_neg htail]
    rfl
  | [_], h => exact takeLength_afterBytes h
  | _ :: _ :: _, h => exact takeBody_afterBytes h

/-! ### The bytes of a frame, one after another (R201, R206) -/

theorem step_byte {s : State} {b : Byte} {rest : List Stimulus}
    (hs : s.pending = .item (.receive 0 b) :: rest) :
    step s = .next { s with
      pending := rest
      rx := (takeByte b s.rx).1
      outputs := s.outputs ++ (takeByte b s.rx).2.toList } :=
  step_item hs (decode_rxByte b)

/-- The bytes of a frame up to one that is not the last: nothing is emitted. -/
theorem runSteps_partial_frame {pre bs tail : List Byte} (hframe : IsFrame (pre ++ (bs ++ tail)))
    (htail : tail ≠ []) {s : State} {rest : List Stimulus} (hrx : s.rx = Receive.afterBytes pre)
    (hs : s.pending = byteStimuli bs ++ rest) :
    runSteps bs.length s = .next { s with pending := rest, rx := Receive.afterBytes (pre ++ bs) } := by
  induction bs generalizing pre s with
  | nil =>
    obtain rfl : s.pending = rest := hs
    rw [List.append_nil, ← hrx]
    rfl
  | cons b bs ih =>
    have hne : bs ++ tail ≠ [] := List.append_ne_nil_of_right_ne_nil bs htail
    have hstep := step_byte (rest := byteStimuli bs ++ rest) hs
    rw [hrx, takeByte_afterBytes (tail := bs ++ tail) hframe, if_neg hne] at hstep
    refine runSteps_succ_next.2 ⟨_, hstep, ?_⟩
    rw [ih (pre := pre ++ [b]) (by simpa using hframe) rfl rfl]
    simp

/-- R201, R206: at a frame boundary the bytes of a frame are emitted as that frame, and the reader is at a
frame boundary again. -/
theorem runSteps_frame {f : List Byte} (hframe : IsFrame f) {s : State} {rest : List Stimulus}
    (hrx : s.rx = Receive.clear) (hs : s.pending = byteStimuli f ++ rest) :
    runSteps f.length s = .next { s with pending := rest, outputs := s.outputs ++ [.frame f] } := by
  obtain rfl | ⟨bs, b, rfl⟩ := f.eq_nil_or_concat'
  · exact absurd hframe.1 (by simp)
  · have hinit := runSteps_partial_frame (pre := []) (tail := [b]) (rest := byteStimuli [b] ++ rest)
      hframe (by simp) (hrx.trans Receive.afterBytes_nil.symm) (by simpa [byteStimuli] using hs)
    have hlast := step_byte (s := { s with pending := byteStimuli [b] ++ rest, rx := Receive.afterBytes bs })
      (rest := rest) rfl
    rw [takeByte_afterBytes (tail := []) hframe, if_pos rfl] at hlast
    rw [List.length_append, runSteps_add _ hinit]
    refine runSteps_succ_next.2 ⟨_, hlast, ?_⟩
    rw [← hrx]
    rfl

end Sys2Proof.Machine
end

section
/-! The request frames ENCR and ENCW build (R142, R143, R145): what each command returns, and that every
frame returned is well formed and comes back from the reader. -/

namespace Sys2Proof

/-! ### The frame of a header and a payload (R61, R64) -/

/-- R63: a checksummed frame whose length byte counts its payload has the length that byte says. -/
theorem isFrame_withChecksum {t n a p d : Byte} {pl : List Byte} (hn : n.toNat = 4 + pl.length) :
    Machine.IsFrame (withChecksum (t :: n :: a :: p :: d :: pl)) := by
  refine Machine.isFrame_cons_cons.2 ?_
  simp [hn]
  omega

/-- R143: the length byte of a Write request within its limit counts the bytes after it. -/
theorem toNat_lengthByte {n : Nat} (h : n ≤ Config.reqPayloadMax) :
    (BitVec.ofNat 8 (4 + n)).toNat = 4 + n := by
  simp only [Config.reqPayloadMax] at h
  rw [BitVec.toNat_ofNat, Nat.mod_eq_of_lt (by omega)]

end Sys2Proof

namespace Sys2Proof.Machine

/-! ### What the commands return -/

theorem exec_encr_of_mem {d : Byte} (h : d ∈ legalDescriptors) (a p : Byte) (s : State) :
    exec (.encr a p d) s = .next (s.respond (Result.ofBytes (withChecksum [0x01, 0x04, a, p, d]))) := by
  simp [exec, execEncr, encodeRead, descValid_iff_mem.2 h, Result.ofExcept]

section
variable {d : Byte} {vs : List PVal}

theorem exec_encw_of_encPayload_error {e : Status} (h : encPayload Config.reqPayloadMax d vs = .error e)
    (a p : Byte) (s : State) : exec (.encw a p d vs) s = .next (s.respond (Result.fail e)) := by
  simp [exec, execEncw, encodeWrite, h, Result.ofExcept]

theorem exec_encw_of_encPayload_ok {pl : List Byte} (h : encPayload Config.reqPayloadMax d vs = .ok pl)
    (a p : Byte) (s : State) :
    exec (.encw a p d vs) s = .next (s.respond (Result.ofBytes (writeFrame a p d pl))) := by
  simp [exec, execEncw, encodeWrite, h, Result.ofExcept]

end

/-- Settles O39, by the decoder and the two cases of the descriptor check. -/
theorem encrResult : Obligations.EncrResult := by
  intro a p d s
  refine ⟨rfl, fun h => (illegalDescriptorRaises d).2 h s _ (.inr (.inr (.inr (.inl ⟨a, p, rfl⟩)))),
    fun h => ?_⟩
  have hsum : checksum [0x01, 0x04, a, p, d] = 0x01 + 0x04 + a + p + d := by
    rw [checksum_eq_sum, List.sum_eq_foldl]; rfl
  rw [← hsum]
  exact exec_encr_of_mem h a p s

/-- Settles O40: the command is ENCW's encoding, and each outcome is one of `encPayload`. -/
theorem encwResult : Obligations.EncwResult := by
  intro a p d vs s
  refine ⟨fun hwf => decode_of_encode (i := .encw a p d vs) hwf rfl,
    fun h => (illegalDescriptorRaises d).2 h s _ (.inr (.inr (.inr (.inr (.inl ⟨a, p, vs, rfl⟩))))),
    fun h hbad => ?_, fun h hvs hlen => ?_⟩
  · exact exec_encw_of_encPayload_error (encPayload_eq_encodingError (descValid_iff_mem.2 h) hbad) a p s
  · have hd := descValid_iff_mem.2 h
    rw [← length_payloadOf hd hvs]
    exact exec_encw_of_encPayload_ok (encPayload_payloadOf hd hvs hlen) a p s

theorem exec_result_unique {i : Instr} {s : State} {r r' : Result} (h : exec i s = .next (s.respond r))
    (h' : exec i s = .next (s.respond r')) : r = r' := by
  simpa [State.respond] using h.symm.trans h'

/-- What a request command returns with status `OK` (R61, R142, R143): the checksummed frame of a header with
a legal descriptor, and of a payload that the length byte counts. -/
theorem exec_request_ok {i : Instr} {s : State} {r : Result}
    (hi : (∃ a p d, i = .encr a p d) ∨ ∃ a p d vs, i = .encw a p d vs)
    (hexec : exec i s = .next (s.respond r)) (hok : r.status = .ok) :
    ∃ t n a p d pl, (t = 0x01 ∨ t = 0x02) ∧ d ∈ legalDescriptors ∧ n.toNat = 4 + pl.length
      ∧ r.bytes = withChecksum (t :: n :: a :: p :: d :: pl) := by
  obtain ⟨a, p, d, rfl⟩ | ⟨a, p, d, vs, rfl⟩ := hi
  · by_cases hd : d ∈ legalDescriptors
    · obtain rfl := exec_result_unique hexec (exec_encr_of_mem hd a p s)
      exact ⟨0x01, 0x04, a, p, d, [], .inl rfl, hd, rfl, rfl⟩
    · obtain rfl := exec_result_unique hexec ((encrResult a p d s).2.1 hd)
      cases hok
  · obtain ⟨-, herror⟩ | ⟨-, -, herror⟩ | ⟨hd, -, hlen, pl, hpl, henc⟩ :=
      encPayload_cases Config.reqPayloadMax d vs
    · obtain rfl := exec_result_unique hexec (exec_encw_of_encPayload_error herror a p s)
      cases hok
    · obtain rfl := exec_result_unique hexec (exec_encw_of_encPayload_error herror a p s)
      cases hok
    · obtain rfl := exec_result_unique hexec (exec_encw_of_encPayload_ok henc a p s)
      rw [← encValues_length hd hpl] at hlen
      exact ⟨0x02, _, a, p, d, pl, .inr rfl, descValid_iff_mem.1 hd, toNat_lengthByte hlen, rfl⟩

/-- Settles O41: the frame returned is a frame in the reader's sense, and its header is the command's. -/
theorem encodedFramesWellFormed : Obligations.EncodedFramesWellFormed := by
  intro i s r hi hexec hok
  obtain ⟨t, n, a, p, d, pl, ht, hd, hn, hbytes⟩ := exec_request_ok hi hexec hok
  obtain ⟨h0, h1, -, -, h4⟩ := header_withChecksum t n a p d pl
  have hlen : (withChecksum (t :: n :: a :: p :: d :: pl)).length = 2 + n.toNat := by
    simp only [length_withChecksum, List.length_cons]; omega
  rw [hbytes, h0, h1, h4, withChecksum_last, withChecksum_body, hlen]
  refine ⟨by omega, by omega, rfl, ht, hd, fun u hrx hpending => ?_⟩
  rw [← hlen]
  exact runSteps_frame (isFrame_withChecksum hn) hrx (by rw [hpending, List.append_nil])

end Sys2Proof.Machine
end

section
/-! DECR of any frame (R170 to R173, R176, R310): the header's length and the payload's place by the bytes of
the frame, the checks in their order, and the time a timestamp denotes. -/

namespace Sys2Proof.Machine

/-! ### The parts of a reply frame (R62, R70, R107, R171) -/

theorem not_usesLayoutT_iff {p : TsPolicy} {d : Byte} :
    ¬ UsesLayoutT p d ↔ p = .gated ∧ d.getLsbD 4 = false := by
  rw [UsesLayoutT, not_or, Bool.not_eq_true]
  exact and_congr_left' (by cases p <;> decide)

theorem headerLen_eq_ite (p : TsPolicy) (raw : List Byte) :
    headerLen p raw = if p = .gated ∧ (byteAt raw 4).getLsbD 4 = false then 5 else 11 := by
  split_ifs with h
  · exact headerLen_of_not_usesLayoutT (not_usesLayoutT_iff.2 h)
  · exact headerLen_of_usesLayoutT (not_not.1 (mt not_usesLayoutT_iff.1 h))

/-- R170: the header has 5 bytes or more, so a frame of fewer than 6 is always too short. -/
theorem belowMinimum_iff {p : TsPolicy} {raw : List Byte} :
    belowMinimum p raw = true ↔ raw.length < 6 ∨ raw.length < headerLen p raw + 1 := by
  have hheader : 5 ≤ headerLen p raw := by
    rw [headerLen_eq_ite]
    split_ifs <;> omega
  rw [← Bool.not_eq_false, belowMinimum_eq_false_iff]
  omega

theorem replyPayload_eq_slice (p : TsPolicy) (raw : List Byte) :
    replyPayload p raw = slice raw (headerLen p raw) (raw.length - headerLen p raw - 1) := by
  rw [replyPayload, List.drop_take, slice, Nat.sub_right_comm]

theorem length_replyPayload (p : TsPolicy) (raw : List Byte) :
    (replyPayload p raw).length = raw.length - headerLen p raw - 1 := by
  rw [replyPayload, List.length_drop, List.length_take_of_le (Nat.sub_le _ _), Nat.sub_right_comm]

/-- R70: the kind of a type byte is its entry in the table of the assigned types. -/
theorem msgKind_eq_lookup (t : Byte) : msgKind t = assignedTypes.lookup t := by
  revert t; decide

/-- R107: the payload decoder's two checks and its values. -/
theorem decPayload_eq_ite (d : Byte) (bs : List Byte) :
    decPayload d bs = if d ∉ legalDescriptors then .error .invalidPayloadType
      else if bs.length % descWidth d ≠ 0 then .error .decodingError else .ok (elementValues d bs) := by
  rw [decPayload, decBody, decValues_eq_elementValues]
  exact if_congr (by rw [Bool.not_eq_true', descValid_eq_false_iff]) rfl rfl

/-! ### The command and the timestamp (R170, R173, R310) -/

/-- Settles O44: the command is DECR's encoding; the checks are the rule's, one by one in its order, and the
last two of them are the payload decoder's. -/
theorem decrResult : Obligations.DecrResult := by
  intro raw s h n hn hh
  rw [← headerLen_eq_ite] at hh
  subst hn hh
  refine ⟨fun hlen => decode_of_encode (i := .decr raw) (decide_eq_true hlen) rfl, ?_⟩
  have hexec : exec (.decr raw) s
      = .next (s.respond (Result.ofExcept Result.ofReply (decodeReply s.tsPolicy raw))) := rfl
  rw [hexec, ← replyPayload_eq_slice, ← length_replyPayload, ← msgKind_eq_lookup, decodeReply, ← ite_or]
  refine congrArg (fun r => Host.Outcome.next (s.respond r)) ?_
  simp only [apply_ite (Result.ofExcept Result.ofReply)]
  refine if_congr ((or_congr_left belowMinimum_iff).trans or_assoc) rfl
    (if_congr Iff.rfl rfl (if_congr Iff.rfl rfl ?_))
  cases msgKind (byteAt raw 0) with
  | none => rfl
  | some kind =>
    simp only [decPayload_eq_ite, replyTimestamp]
    split_ifs <;> rfl

/-- Settles O45: a tick of 32 microseconds is 1/31250 of a second. -/
theorem timestampValue : Obligations.TimestampValue := by
  intro ts
  have htick : (Config.tickMicros : ℚ) / 1000000 = 1 / 31250 := by norm_num [Config.tickMicros]
  rw [Timestamp.value, mul_div_assoc, htick, mul_one_div]

end Sys2Proof.Machine
end

section
/-! The FrameReader (R201 to R204, R210 to R212): what one receive event does in each reader state, the
commands RST and STAT, and the reader's transitions. -/

namespace Sys2Proof.Machine

/-! ### The receive frame buffer -/

theorem read?_rxStore_self {m : Memory} {i : Nat} (hi : i < Config.frameMax) (b : Byte) :
    (rxStore m i b).read? i = some b := by
  rw [rxStore, if_pos hi, Memory.read?_write, if_pos rfl]

theorem read?_rxStore_of_ne {m : Memory} {i j : Nat} (hi : i < Config.frameMax) (b : Byte) (hj : j ≠ i) :
    (rxStore m i b).read? j = m.read? j := by
  rw [rxStore, if_pos hi, Memory.read?_write, if_neg hj.symm]

theorem rxLoad_of_read? {m : Memory} {i : Nat} {b : Byte} (h : m.read? i = some b) : rxLoad m i = b := by
  rw [rxLoad, h, Option.getD_some]

/-! ### The receive step in each reader state -/

section
variable {r : Receive}

theorem takeByte_of_idle (h : r.rxState = .idle) (b : Byte) : takeByte b r = takeType b r := by
  simp only [takeByte, h]

theorem takeByte_of_haveType (h : r.rxState = .haveType) (b : Byte) : takeByte b r = takeLength b r := by
  simp only [takeByte, h]

theorem takeByte_of_body (h : r.rxState = .body) (b : Byte) : takeByte b r = takeBody b r := by
  simp only [takeByte, h]

theorem takeTimeout_of_idle (h : r.rxState = .idle) : takeTimeout r = (r, some .noFrame) := by
  simp only [takeTimeout, h]

theorem takeTimeout_of_midFrame (h : r.rxState = .haveType ∨ r.rxState = .body) :
    takeTimeout r = enterFailed .truncated r := by
  obtain h | h := h <;> simp only [takeTimeout, h]

theorem takeClosed_of_idle (h : r.rxState = .idle) : takeClosed r = enterFailed .streamClosed r := by
  simp only [takeClosed, h]

theorem takeClosed_of_midFrame (h : r.rxState = .haveType ∨ r.rxState = .body) :
    takeClosed r = enterFailed .truncated r := by
  obtain h | h := h <;> simp only [takeClosed, h]

/-- R204. -/
theorem receiveStep_of_failed (h : r.rxState = .failed) (e : RxEvent) : receiveStep e r = (r, none) := by
  cases e with
  | rxByte b => simp only [receiveStep, takeByte, h]
  | rxTimeout => simp only [receiveStep, takeTimeout, h]
  | rxClosed => simp only [receiveStep, takeClosed, h]

end

/-! ### Receive events from a state (R88) -/

theorem State.receive_none (s : State) (r : Receive) : s.receive (r, none) = { s with rx := r } := by
  simp only [State.receive, Option.toList_none, List.append_nil]

theorem exec_rxByte_eq (b : Byte) (s : State) : exec (.rxByte b) s = .next (s.receive (takeByte b s.rx)) :=
  rfl

theorem exec_rxTimeout_eq (s : State) : exec .rxTimeout s = .next (s.receive (takeTimeout s.rx)) := rfl

theorem exec_rxClosed_eq (s : State) : exec .rxClosed s = .next (s.receive (takeClosed s.rx)) := rfl

theorem exec_rxEvent_of_failed {s : State} (h : s.rx.rxState = .failed) (e : RxEvent) :
    exec e.instr s = .next s := by
  rw [exec_rxEvent, sourceStep, receiveStep_of_failed h, State.receive_none]

section
variable {s : State} (h : s.rx.rxState = .haveType ∨ s.rx.rxState = .body)
include h

/-- R202 in the middle of a frame. -/
theorem exec_rxTimeout_of_midFrame : exec .rxTimeout s = .next { s with
    rx := { s.rx with rxState := .failed, rxFault := .truncated }
    outputs := s.outputs ++ [.fault .truncatedFrame] } := by
  rw [exec_rxTimeout_eq, takeTimeout_of_midFrame h]
  rfl

/-- R203 in the middle of a frame: the same as R202. -/
theorem exec_rxClosed_of_midFrame : exec .rxClosed s = exec .rxTimeout s := by
  rw [exec_rxClosed_eq, exec_rxTimeout_eq, takeClosed_of_midFrame h, takeTimeout_of_midFrame h]

end

/-! ### RX_BYTE (R201) -/

/-- Settles O18: the store puts the byte at index 0 and leaves the other entries. -/
theorem rxByteTakesType : Obligations.RxByteTakesType := by
  intro b s hs
  have hexec : exec (.rxByte b) s = .next (s.receive (takeType b s.rx)) := by
    rw [exec_rxByte_eq, takeByte_of_idle hs]
  rw [takeType, State.receive_none] at hexec
  exact ⟨rfl, rxStore s.rx.rxBuf 0 b, hexec, read?_rxStore_self (by decide) b,
    fun _ => read?_rxStore_of_ne (by decide) b⟩

/-- The frame of a type byte and a length byte 0 (R201). -/
theorem rxFrame_rxStore_length {m : Memory} {t0 : Byte} (h0 : m.read? 0 = some t0) (b : Byte) :
    rxFrame (rxStore m 1 b) 2 = [t0, b] := by
  have htype : rxLoad (rxStore m 1 b) 0 = t0 :=
    rxLoad_of_read? ((read?_rxStore_of_ne (by decide) b (by decide)).trans h0)
  have hlength : rxLoad (rxStore m 1 b) 1 = b := rxLoad_of_read? (read?_rxStore_self (by decide) b)
  exact congrArg₂ (fun x y => [x, y]) htype hlength

/-- Settles O19: a nonzero byte is stored at index 1; the byte 0 ends the frame. -/
theorem rxByteTakesLength : Obligations.RxByteTakesLength := by
  intro b s hs
  have hexec : exec (.rxByte b) s = .next (s.receive (takeLength b s.rx)) := by
    rw [exec_rxByte_eq, takeByte_of_haveType hs]
  rw [takeLength] at hexec
  constructor
  · intro hb
    rw [if_neg hb, State.receive_none] at hexec
    exact ⟨rxStore s.rx.rxBuf 1 b, hexec, read?_rxStore_self (by decide) b,
      fun _ => read?_rxStore_of_ne (by decide) b⟩
  · rintro rfl t0 h0
    rw [if_pos rfl, finishFrame, rxFrame_rxStore_length h0] at hexec
    exact hexec

/-- R22: under the rules of the receive state the count does not wrap before it reaches the length. -/
theorem rxCnt_succ_eq_rxLen_iff {r : Receive} (hr : r.Inv) :
    r.rxCnt + 1 = r.rxLen ↔ r.rxCnt.toNat + 1 = r.rxLen.toNat := by
  have hcnt := hr.rxCnt_le
  have hnext : (r.rxCnt + 1).toNat = r.rxCnt.toNat + 1 :=
    BitVec.toNat_add_of_lt (y := 1) (show r.rxCnt.toNat + 1 < 2 ^ 8 by omega)
  rw [← BitVec.toNat_inj, hnext]

/-- Settles O20: the byte goes after the bytes listed so far, and the last one has the buffer read out
whole. -/
theorem rxByteTakesBody : Obligations.RxByteTakesBody := by
  intro b s hinv hs
  have hexec : exec (.rxByte b) s = .next (s.receive (takeBody b s.rx)) := by
    rw [exec_rxByte_eq, takeByte_of_body hs]
  obtain ⟨-, -, hindices⟩ := (Receive.inv_iff_of_body hs).1 hinv
  have hbound : 2 + s.rx.rxCnt.toNat < Config.frameMax := by
    have := hinv.rxCnt_le
    simp only [Config.frameMax]; omega
  have hbytes : (rxStore s.rx.rxBuf (2 + s.rx.rxCnt.toNat) b).map Prod.snd = s.rx.partialFrame ++ [b] := by
    rw [rxStore_next _ _ b hindices hbound, List.map_append]
    rfl
  rw [takeBody] at hexec
  constructor
  · intro hmore
    rw [if_neg (mt (rxCnt_succ_eq_rxLen_iff hinv).1 hmore), State.receive_none] at hexec
    exact ⟨_, hexec, read?_rxStore_self hbound b, fun _ => read?_rxStore_of_ne hbound b, hbytes⟩
  · intro hlast
    have hframe : rxFrame (rxStore s.rx.rxBuf (2 + s.rx.rxCnt.toNat) b) (2 + s.rx.rxLen.toNat)
        = s.rx.partialFrame ++ [b] := by
      rw [← hbytes, ← hlast]
      exact rxFrame_all _ _ (rxStore_indices b hindices hbound)
    rw [if_pos ((rxCnt_succ_eq_rxLen_iff hinv).2 hlast), finishFrame, hframe] at hexec
    exact hexec

/-! ### RX_TIMEOUT and RX_CLOSED (R202, R203) -/

/-- Settles O21, reader state by reader state. -/
theorem rxTimeoutEffect : Obligations.RxTimeoutEffect := by
  intro b s
  refine ⟨rfl, fun h => ?_, exec_rxTimeout_of_midFrame, fun h => exec_rxEvent_of_failed h .rxTimeout⟩
  rw [exec_rxTimeout_eq, takeTimeout_of_idle h]
  rfl

/-- Settles O22, reader state by reader state. -/
theorem rxClosedEffect : Obligations.RxClosedEffect := by
  intro b s
  refine ⟨rfl, fun h => ?_, fun h => (exec_rxClosed_of_midFrame h).trans (exec_rxTimeout_of_midFrame h),
    fun h => exec_rxEvent_of_failed h .rxClosed⟩
  rw [exec_rxClosed_eq, takeClosed_of_idle h]
  rfl

/-! ### RST and STAT (R210, R211) -/

/-- Settles O5, by the decoder and the meaning of RST. -/
theorem rstResetsReader : Obligations.RstResetsReader :=
  fun _ => ⟨rfl, rfl⟩

/-- Settles O4: the record is STATUS, whose codes are the numbers of R21, R24 and R25. -/
theorem statReturnsStatus : Obligations.StatReturnsStatus := by
  intro s
  have hexec : exec .stat s = .next (s.respond (Result.ofWord (statusWord s))) := rfl
  rw [hexec]
  refine ⟨rfl, congrArg (fun w => Host.Outcome.next (s.respond (Result.ofWord w))) ?_⟩
  refine congrArg₂ (· ||| ·) (congrArg₂ (· ||| ·) (congrArg₂ (· ||| ·) (congrArg₂ (· ||| ·) ?_
    (congrArg (fun x : Word => x <<< 2) ?_)) rfl) rfl) (congrArg (fun x : Word => x <<< 24) ?_)
  · cases s.rx.rxState <;> rfl
  · cases s.rx.rxFault <;> rfl
  · cases s.tsPolicy <;> rfl

/-- RST is the one command `08`, and nothing else decodes to it (R81). -/
theorem eq_command_of_decode_rst {e : Encoded} (h : decode e = .ok .rst) : e = .command [0x08] := by
  cases e with
  | command c => rw [← encode_decodeCommand c, Except.ok.inj h]; rfl
  | receive ev b => obtain ⟨-, hi⟩ | ⟨-, hi⟩ | ⟨-, hi⟩ := decode_receive_ok h <;> cases hi
  | requestFrame f => cases (decodeRequest_ok h).2
  | replyFrame f =>
    simp only [decode] at h
    split_ifs at h
    cases (congrArg Instr.format (Except.ok.inj h)).symm.trans (decodeReplyRow_format f)
  | descriptor d =>
    have hrow : decodeDescriptor d = .rst := Except.ok.inj h
    by_cases hd : d ∈ legalDescriptors
    · cases (congrArg Instr.format hrow).symm.trans (decodeDescriptor_of_mem d hd).2
    · cases hrow.symm.trans (decodeDescriptor_of_not_mem hd)

/-! ### The reader's transitions (R204, R212) -/

theorem exec_keeps_failed {i : Instr} {s t : State} (hs : s.rx.rxState = .failed) (hi : i ≠ .rst)
    (h : exec i s = .next t) : t.rx.rxState = .failed := by
  obtain ⟨hrst, -⟩ | ⟨e, rfl, -⟩ | ⟨-, -, r, rfl⟩ := exec_next_cases h
  · exact absurd hrst hi
  · cases (exec_rxEvent_of_failed hs e).symm.trans h
    exact hs
  · exact hs

/-- Settles O11: the events leave `FAILED` alone, and so does every other item a step takes but RST. -/
theorem failedIsSticky : Obligations.FailedIsSticky := by
  intro s hs
  have hevent := exec_rxEvent_of_failed hs
  refine ⟨fun b => hevent (.rxByte b), hevent .rxTimeout, hevent .rxClosed, fun t hstep hleft => ?_⟩
  obtain ⟨-, rfl⟩ | ⟨rest, hp, -⟩ | ⟨e, rest, i, hp, hd, hexec⟩ := step_next_cases hstep
  · exact absurd hs hleft
  · exact .inl (congrArg List.head? hp)
  · have hkept := exec_keeps_failed (i := i) (s := { s with pending := rest }) (t := t) hs
    obtain rfl : i = .rst := by_contra fun hi => hleft (hkept hi hexec)
    exact .inr (by rw [hp, eq_command_of_decode_rst hd]; rfl)

section
variable {r : Receive} (b : Byte)

theorem takeByte_rxState_of_idle (h : r.rxState = .idle) : (takeByte b r).1.rxState = .haveType := by
  rw [takeByte_of_idle h, takeType]

theorem takeByte_rxState_of_haveType (h : r.rxState = .haveType) :
    (takeByte b r).1.rxState = if b = 0 then .idle else .body := by
  rw [takeByte_of_haveType h, takeLength]
  split_ifs <;> rfl

theorem takeByte_rxState_of_body (h : r.rxState = .body) :
    (takeByte b r).1.rxState = if r.rxCnt + 1 = r.rxLen then .idle else .body := by
  rw [takeByte_of_body h, takeBody]
  split_ifs
  · rfl
  · exact h

end

theorem takeTimeout_rxState_of_midFrame {r : Receive} (h : r.rxState = .haveType ∨ r.rxState = .body) :
    (takeTimeout r).1.rxState = .failed := by
  rw [takeTimeout_of_midFrame h, enterFailed_rxState]

theorem takeClosed_rxState (r : Receive) : (takeClosed r).1.rxState = .failed := by
  cases h : r.rxState with
  | idle => rw [takeClosed_of_idle h, enterFailed_rxState]
  | haveType => rw [takeClosed_of_midFrame (.inl h), enterFailed_rxState]
  | body => rw [takeClosed_of_midFrame (.inr h), enterFailed_rxState]
  | failed => exact (congrArg (·.1.rxState) (receiveStep_of_failed h .rxClosed)).trans h

/-- R201 to R204: every transition a receive event makes, with the event that makes it. -/
theorem receiveStep_rxState_cases (e : RxEvent) (r : Receive) :
    (receiveStep e r).1.rxState = r.rxState
      ∨ (r.rxState = .idle ∧ (receiveStep e r).1.rxState = .haveType ∧ ∃ b, e.instr = .rxByte b)
      ∨ (r.rxState = .haveType ∧ (receiveStep e r).1.rxState = .idle ∧ e.instr = .rxByte 0)
      ∨ (r.rxState = .haveType ∧ (receiveStep e r).1.rxState = .body
          ∧ ∃ b, b ≠ 0 ∧ e.instr = .rxByte b)
      ∨ (r.rxState = .body ∧ (receiveStep e r).1.rxState = .idle ∧ r.rxCnt + 1 = r.rxLen
          ∧ ∃ b, e.instr = .rxByte b)
      ∨ ((r.rxState = .haveType ∨ r.rxState = .body) ∧ (receiveStep e r).1.rxState = .failed
          ∧ (e.instr = .rxTimeout ∨ e.instr = .rxClosed))
      ∨ (r.rxState = .idle ∧ (receiveStep e r).1.rxState = .failed ∧ e.instr = .rxClosed) := by
  cases hs : r.rxState with
  | idle =>
    cases e with
    | rxByte b => exact .inr (.inl ⟨rfl, takeByte_rxState_of_idle b hs, b, rfl⟩)
    | rxTimeout => exact .inl ((congrArg (·.1.rxState) (takeTimeout_of_idle hs)).trans hs)
    | rxClosed => simp [receiveStep, takeClosed_rxState, RxEvent.instr]
  | haveType =>
    cases e with
    | rxByte b =>
      have hnext := takeByte_rxState_of_haveType b hs
      by_cases hb : b = 0
      · exact .inr (.inr (.inl ⟨rfl, hnext.trans (if_pos hb), congrArg Instr.rxByte hb⟩))
      · exact .inr (.inr (.inr (.inl ⟨rfl, hnext.trans (if_neg hb), b, hb, rfl⟩)))
    | rxTimeout => simp [receiveStep, takeTimeout_rxState_of_midFrame (.inl hs), RxEvent.instr]
    | rxClosed => simp [receiveStep, takeClosed_rxState, RxEvent.instr]
  | body =>
    cases e with
    | rxByte b =>
      have hnext := takeByte_rxState_of_body b hs
      by_cases hlast : r.rxCnt + 1 = r.rxLen
      · exact .inr (.inr (.inr (.inr (.inl ⟨rfl, hnext.trans (if_pos hlast), hlast, b, rfl⟩))))
      · exact .inl (hnext.trans (if_neg hlast))
    | rxTimeout => simp [receiveStep, takeTimeout_rxState_of_midFrame (.inr hs), RxEvent.instr]
    | rxClosed => simp [receiveStep, takeClosed_rxState, RxEvent.instr]
  | failed => exact .inl (by rw [receiveStep_of_failed hs, hs])

/-- Settles O10: a transition is that of a receive event, or RST or the block reset makes it; each one listed
happens by the reader state it starts from. -/
theorem readerTransitions : Obligations.ReaderTransitions := by
  refine ⟨fun i s t h => ?_, fun b s t h => ?_, fun s t h hs => ?_, fun s t h => ?_, fun s t h => ?_,
    fun s t rest hp h => ?_⟩
  · obtain ⟨rfl, rfl⟩ | ⟨e, rfl, rfl⟩ | ⟨-, -, r, rfl⟩ := exec_next_cases h
    · simp
    · exact (receiveStep_rxState_cases e s.rx).imp_right
        (.imp_right (.imp_right (.imp_right (.imp_right (.imp_right .inl)))))
    · exact .inl rfl
  · cases h
    exact ⟨takeByte_rxState_of_idle b, takeByte_rxState_of_haveType b,
      fun hs hlast => (takeByte_rxState_of_body b hs).trans (if_pos hlast)⟩
  · cases h
    exact takeTimeout_rxState_of_midFrame hs
  · cases h
    exact takeClosed_rxState s.rx
  · cases h
    rfl
  · cases (step_reset hp).symm.trans h
    rfl

end Sys2Proof.Machine
end

section
/-! The reader on whole streams (R201 to R203, R206, R210): any number of frames, a stream that ends in the
middle of a frame, and a frame after RST. -/

namespace Sys2Proof.Machine

/-! ### Frames one after another -/

theorem byteStimuli_append (bs cs : List Byte) : byteStimuli (bs ++ cs) = byteStimuli bs ++ byteStimuli cs :=
  List.map_append

/-- R206: the bytes of frames, delivered at a frame boundary, are emitted as those frames, in order. -/
theorem runSteps_frames {fs : List (List Byte)} (hframes : ∀ f ∈ fs, IsFrame f) {s : State}
    {rest : List Stimulus} (hrx : s.rx = Receive.clear) (hs : s.pending = byteStimuli fs.flatten ++ rest) :
    runSteps fs.flatten.length s
      = .next { s with pending := rest, outputs := s.outputs ++ fs.map .frame } := by
  induction fs generalizing s with
  | nil =>
    obtain rfl : s.pending = rest := hs
    rw [List.map_nil, List.append_nil]
    rfl
  | cons f fs ih =>
    rw [List.flatten_cons, byteStimuli_append, List.append_assoc] at hs
    have hfirst := runSteps_frame (hframes f List.mem_cons_self) hrx hs
    have hothers := ih (s := { s with
      pending := byteStimuli fs.flatten ++ rest, outputs := s.outputs ++ [.frame f] })
      (fun g hg => hframes g (List.mem_cons_of_mem f hg)) hrx rfl
    rw [List.append_assoc] at hothers
    rw [List.flatten_cons, List.length_append, runSteps_add _ hfirst]
    exact hothers

/-- Settles O24, frame by frame. -/
theorem streamEmitsItsFrames : Obligations.StreamEmitsItsFrames :=
  fun _ _ _ hframes hrx => runSteps_frames hframes hrx rfl

/-- Settles O26: RST leaves the reader at a frame boundary. -/
theorem rstThenFrameIsEmitted : Obligations.RstThenFrameIsEmitted := by
  intro f s rest hframe
  have hrst := step_item (s := { s with pending := .item (.command [0x08]) :: byteStimuli f ++ rest })
    (rest := byteStimuli f ++ rest) (i := .rst) rfl rfl
  rw [add_comm]
  exact runSteps_succ_next.2 ⟨_, hrst, runSteps_frame hframe rfl rfl⟩

/-! ### The end of a stream in the middle of a frame -/

theorem Receive.afterBytes_rxState_midFrame {pre : List Byte} (h : pre ≠ []) :
    (Receive.afterBytes pre).rxState = .haveType ∨ (Receive.afterBytes pre).rxState = .body := by
  match pre, h with
  | [_], _ => exact .inl rfl
  | _ :: _ :: _, _ => exact .inr rfl

/-- R202, R203: a timeout and a close do the same in the middle of a frame. -/
theorem step_endStimulus {s : State} {closed : Bool} {b : Byte} {rest : List Stimulus}
    (hs : s.pending = endStimulus closed b :: rest) (h : s.rx.rxState = .haveType ∨ s.rx.rxState = .body) :
    step s = .next { s with
      pending := rest
      rx := { s.rx with rxState := .failed, rxFault := .truncated }
      outputs := s.outputs ++ [.fault .truncatedFrame] } := by
  have htimeout := exec_rxTimeout_of_midFrame (s := { s with pending := rest }) h
  have hclosed := exec_rxClosed_of_midFrame (s := { s with pending := rest }) h
  cases closed with
  | false => exact (step_item hs (decode_rxTimeout b)).trans htimeout
  | true => exact (step_item hs (decode_rxClosed b)).trans (hclosed.trans htimeout)

/-- R22: `rx_len` after the first bytes of a frame. -/
theorem Receive.afterBytes_take_rxLen (f : List Byte) (k : Nat) :
    (Receive.afterBytes (f.take k)).rxLen = if 2 ≤ k then byteAt f 1 else 0 := by
  split_ifs with hk
  · exact byteAt_take hk
  · exact List.getD_eq_default _ _ (by rw [List.length_take]; omega)

/-- Settles O25: the reader is in the middle of the frame, where both events take the fault `TRUNCATED` and
keep the rest of the receive state. -/
theorem midFrameEndTruncates : Obligations.MidFrameEndTruncates := by
  intro f k closed b s rest hframe hpos hlt hrx
  have hlen : (f.take k).length = k := List.length_take_of_le hlt.le
  have htake : f.take k ++ f.drop k = f := List.take_append_drop k f
  have hrun := runSteps_partial_frame (pre := []) (bs := f.take k) (tail := f.drop k)
    (by rwa [List.nil_append, htake]) (by simpa using hlt)
    (s := { s with pending := byteStimuli (f.take k) ++ endStimulus closed b :: rest }) hrx rfl
  rw [hlen] at hrun
  have hmid := Receive.afterBytes_rxState_midFrame (pre := f.take k)
    (List.ne_nil_of_length_pos (by omega))
  rw [runSteps_add 1 hrun]
  refine ⟨_, runSteps_succ_next.2 ⟨_, step_endStimulus rfl hmid, rfl⟩, rfl, rfl, rfl,
    Receive.afterBytes_partialFrame _, Receive.afterBytes_take_rxLen f k, ?_, rfl, rfl, rfl⟩
  exact congrArg (fun n => BitVec.ofNat 8 (n - 2)) hlen

end Sys2Proof.Machine
end

section
/-! Errors (R300, R302, R305, R312, R314): the numbers of the status codes, every instruction but RX_RESERVED
completes, and a record with an error status holds nothing but the status. -/

namespace Sys2Proof

/-- R300: the codes above 0x09 are reserved. -/
theorem Status.code_toNat_lt (st : Status) : st.code.toNat < 10 := by
  cases st <;> decide

/-- R87: every receive row but RX_RESERVED is the row of a receive event. -/
theorem eq_rxEvent_instr_of_format {i : Instr} (hformat : i.format = .receiveEvent) (hi : i ≠ .rxReserved) :
    ∃ e : RxEvent, i = e.instr := by
  cases i with
  | rxByte b => exact ⟨.rxByte b, rfl⟩
  | rxTimeout => exact ⟨.rxTimeout, rfl⟩
  | rxClosed => exact ⟨.rxClosed, rfl⟩
  | rxReserved => exact absurd rfl hi
  | _ => cases hformat

/-! ### All-or-nothing records (R305) -/

/-- R305: with a status other than `OK` the record is the one an operation that raises the status returns. -/
def Result.AllOrNothing (r : Result) : Prop := r.status ≠ .ok → r = Result.fail r.status

theorem Result.allOrNothing_fail (e : Status) : (Result.fail e).AllOrNothing := fun _ => rfl

theorem Result.allOrNothing_of_ok {r : Result} (h : r.status = .ok) : r.AllOrNothing := fun hr => absurd h hr

/-- An operation that returns `OK` with its value, and its error alone where it raises one, is
all-or-nothing. -/
theorem Result.allOrNothing_ofExcept {α : Type} {f : α → Result} (hf : ∀ x, (f x).status = .ok)
    (x : Except Status α) : (Result.ofExcept f x).AllOrNothing := by
  cases x with
  | error e => exact Result.allOrNothing_fail e
  | ok a => exact Result.allOrNothing_of_ok (hf a)

end Sys2Proof

namespace Sys2Proof.Machine

/-- R102: PTYP returns the fields of a legal descriptor, or raises `InvalidPayloadType` and returns nothing. -/
theorem ptyp_allOrNothing (d : Byte) :
    (if descValid d then Result.ofDesc (descFields d) else Result.fail .invalidPayloadType).AllOrNothing := by
  split_ifs
  · exact Result.allOrNothing_of_ok rfl
  · exact Result.allOrNothing_fail _

/-- An instruction that is neither RST nor a receive event returns one all-or-nothing record. -/
theorem exec_respond_allOrNothing {i : Instr} (hrst : i ≠ .rst) (hformat : i.format ≠ .receiveEvent)
    (s : State) : ∃ r : Result, exec i s = .next (s.respond r) ∧ r.AllOrNothing := by
  cases i with
  | rst => exact absurd rfl hrst
  | rxByte | rxTimeout | rxClosed | rxReserved => exact absurd rfl hformat
  | ptyp d => exact ⟨_, rfl, ptyp_allOrNothing d⟩
  | penc | pdec | encr | encw | decr | readReq | writeReq | read | write | event | readError | writeError
  | replyUnassigned => exact ⟨_, rfl, Result.allOrNothing_ofExcept (fun _ => rfl) _⟩
  | illegal | ptIllegal => exact ⟨_, rfl, Result.allOrNothing_fail _⟩
  | _ => exact ⟨_, rfl, Result.allOrNothing_of_ok rfl⟩

/-- The results after an instruction: those before it, or those and one all-or-nothing record. -/
theorem exec_results_cases {i : Instr} {s t : State} (h : exec i s = .next t) :
    t.results = s.results ∨ ∃ r : Result, t.results = s.results ++ [r] ∧ r.AllOrNothing := by
  obtain ⟨-, rfl⟩ | ⟨e, -, rfl⟩ | ⟨hrst, hformat, -⟩ := exec_next_cases h
  · exact .inr ⟨Result.done, rfl, Result.allOrNothing_of_ok rfl⟩
  · exact .inl rfl
  · obtain ⟨r, hr, hall⟩ := exec_respond_allOrNothing hrst hformat s
    cases hr.symm.trans h
    exact .inr ⟨r, rfl, hall⟩

/-- Settles O14: the one record an instruction can add is all-or-nothing. -/
theorem errorsReturnNothingElse : Obligations.ErrorsReturnNothingElse := by
  intro i s t r hexec hadd hr
  obtain hsame | ⟨r', hadd', hall⟩ := exec_results_cases hexec
  · simp [hsame] at hadd
  · obtain rfl : r' = r := by simpa using hadd'.symm.trans hadd
    exact hall hr

/-- Settles O16: RST, a receive event, or an instruction that returns one record. -/
theorem everyInstructionCompletes : Obligations.EveryInstructionCompletes := by
  intro i s hi
  by_cases hrst : i = .rst
  · subst hrst
    exact ⟨_, rfl⟩
  by_cases hformat : i.format = .receiveEvent
  · obtain ⟨e, rfl⟩ := eq_rxEvent_instr_of_format hformat hi
    exact ⟨_, exec_rxEvent e s⟩
  · obtain ⟨r, hr⟩ := exec_respond hrst hformat s
    exact ⟨_, hr⟩

/-- Settles O17, number by number, with `Status.code_toNat_lt` for the codes never produced. -/
theorem statusCodeNumbers : Obligations.StatusCodeNumbers :=
  ⟨rfl, rfl, rfl, rfl, rfl, rfl, rfl, rfl, rfl, rfl, Status.code_toNat_lt⟩

end Sys2Proof.Machine
end

section
/-! The block reset input (R330, R331): its step, and that RST leaves the same receive state and
`TS_POLICY`. -/

namespace Sys2Proof.Machine

/-- Settles O2: the step of the block reset leaves the receive state and `TS_POLICY` that
`rstResetsReader` gives for RST. -/
theorem blockResetStep : Obligations.BlockResetStep := by
  intro s rest hs
  refine ⟨step_reset hs, fun t hrst u hreset => ?_⟩
  obtain ⟨-, hexec⟩ := rstResetsReader s
  cases hexec.symm.trans hrst
  cases (step_reset hs).symm.trans hreset
  exact ⟨rfl, rfl⟩

end Sys2Proof.Machine
end
